-- ==== Sys2Proof/Word.lean ====
section
/-! DEFINITION. The value types of the block: bytes, 16-bit quantities and byte sequences (00_scope R8). -/

namespace Sys2Proof

/-- A byte, 0..255; bit 7 is the most significant (R8). -/
abbrev Byte := BitVec 8

/-- The one wider quantity of the block: checksums, V, R, power and speed are 16 bits (R53). -/
abbrev Word16 := BitVec 16

/-- A byte sequence in link order, index 0 first (R8): a frame, an encoder payload, an accepted frame. -/
abbrev Frame := List Byte

end Sys2Proof
end

