-- ==== Sys2Proof/Config.lean ====
section
/-! DEFINITION. The parameters and the hardwired constants of the block (00_scope R7, 10_state R28, R29). -/

namespace Sys2Proof

/-- The parameters the spec leaves OPEN (R7). They are "parameters of the step function, not state: no operation
writes them" (R20); the machine's State carries one record of them, so that every statement covers every instance
(log 1). TICK_PERIOD is not here: no rule depends on it (log 10). -/
structure Params where
  /-- MON_RUN: the run state is monitored (R28). -/
  monRun : Bool
  /-- MON_POWER (R28). -/
  monPower : Bool
  /-- MON_SPEED (R28). -/
  monSpeed : Bool
  /-- CLK_W: width in bits of the clock and of `last_activity` (R7, D3). -/
  clkW : Nat
  /-- TXQ_DEPTH: how many frames the Transmit Queue holds; `none` is unbounded (R7, R64, D8). -/
  txqDepth : Option Nat
deriving DecidableEq, Repr

namespace Config

/-- The instance State.reset describes: the spec's defaults for CLK_W and TXQ_DEPTH (R7); all three observables
monitored, as the test vectors take them (95_test_vectors; DESIGN CHOICE, log 2). -/
def defaults : Params :=
  { monRun := true, monPower := true, monSpeed := true, clkW := 32, txqDepth := none }

/-- QUIET_MS (R7, R29). -/
def quietMs : Nat := 100

/-- PREAMBLE, the three-byte link preamble (R7, R80). -/
def preamble : List Byte := [0xFF, 0x00, 0xFF]

/-- HDR, the fourth header byte (R7, R80). -/
def hdr : Byte := 0xA5

/-- The four-byte link header `FF 00 FF A5` (R80). -/
def linkHeader : List Byte := [0xFF, 0x00, 0xFF, 0xA5]

/-- LEN_POS, the buffer position of the length byte (R7). -/
def lenPos : Nat := 8

/-- FRAME_OVERHEAD, total frame length minus length-payload length (R7, R83; 90_conflicts C1). -/
def frameOverhead : Nat := 11

/-- CKSUM_MOD (R7, R84). -/
def cksumMod : Nat := 65536

/-- PAYLOAD_MAX_CMD, the largest encoder payload of a command (R7). -/
def payloadMaxCmd : Nat := 10

/-- RXBUF_CAP, the capacity of the Receive Buffer (R7, R63). -/
def rxBufCap : Nat := 266

/-- The shortest accepted frame that holds `frame[9]` to `frame[12]` (R216, R221). -/
def statusMinLen : Nat := 13

end Config
end Sys2Proof
end

