-- ==== Sys2Proof/Machine/Operands.lean ====
section
/-! DEFINITION. Byte order, slices, checksums, the frame format and every operand form of the spec: the substituted
parameter bytes and the ten payload templates (00_scope R8, R9; 20_memory R53, R56; 30_encoding R80 to R89). -/

namespace Sys2Proof.Machine

/-- `hi(v) = (v div 256) mod 256` (R9). -/
def hi (v : Word16) : Byte := BitVec.ofNat 8 (v.toNat / 256)

/-- `lo(v) = v mod 256` (R9). -/
def lo (v : Word16) : Byte := BitVec.ofNat 8 (v.toNat % 256)

/-- `be16(h, l) = h*256 + l` (R9, R53). -/
def be16 (h l : Byte) : Word16 := BitVec.ofNat 16 (h.toNat * 256 + l.toNat)

/-- `sum(s)`: the bytes added as unbounded integers, 0 for the empty sequence (R9). -/
def sumBytes : List Byte → Nat
  | [] => 0
  | b :: rest => b.toNat + sumBytes rest

/-- `sum(s) mod 65536` (R84, R181). -/
def checksum (s : List Byte) : Word16 := BitVec.ofNat 16 (sumBytes s % Config.cksumMod)

/-- `s[a .. b)` (R8). -/
def slice (a b : Nat) (s : List Byte) : List Byte := (s.drop a).take (b - a)

/-- `s[i]` where the rules guarantee `i < len(s)` (R51); what it gives elsewhere is used nowhere. -/
def byteAt (s : List Byte) (i : Nat) : Byte := s.getD i 0

/-- The two trailer bytes, high byte first (R53, R84). -/
def trailer (c : Word16) : List Byte := [hi c, lo c]

/-- What ENCODE builds: preamble, payload, trailer (R181). -/
def encodeFrame (p : List Byte) : Frame :=
  let c := checksum p
  Config.preamble ++ p ++ trailer c

/-- The bytes of a frame on the link (R80): header, r0..r3, length byte, length-payload, trailer as received. -/
def linkBytes (r0 r1 r2 r3 : Byte) (payload : List Byte) (ck : Word16) : List Byte :=
  Config.linkHeader ++ [r0, r1, r2, r3, BitVec.ofNat 8 payload.length] ++ payload ++ trailer ck

/-- `xx = (N + 1) mod 256` of CMD.SEL_LOCAL (R88, R89). -/
def selLocalByte (n : Byte) : Byte := BitVec.ofNat 8 ((n.toNat + 1) % 256)

/-- `xx = (N * 8) mod 256` of CMD.SEL_EXT (R88, R89). -/
def selExtByte (n : Byte) : Byte := BitVec.ofNat 8 ((n.toNat * 8) % 256)

/-- `xx = (0x26 + N) mod 256` of CMD.SAVE (R88, R89). -/
def saveByte (n : Byte) : Byte := BitVec.ofNat 8 ((0x26 + n.toNat) % 256)

/-- The encoder payload of CMD.REQ_STATUS (R87, R184). -/
def payloadReqStatus : List Byte := [0xA5, 0x00, 0x60, 0x10, 0x07, 0x00]

/-- The encoder payload of CMD.FORCE_LOCAL (R87, R185). -/
def payloadForceLocal : List Byte := [0xA5, 0x00, 0x60, 0x10, 0x04, 0x01, 0x00]

/-- The encoder payload of CMD.FORCE_REMOTE (R87, R186). -/
def payloadForceRemote : List Byte := [0xA5, 0x00, 0x60, 0x10, 0x04, 0x01, 0xFF]

/-- The encoder payload of CMD.RUN (R87, R187). -/
def payloadRun : List Byte := [0xA5, 0x00, 0x60, 0x10, 0x06, 0x01, 0x0A]

/-- The encoder payload of CMD.STOP (R87, R188). -/
def payloadStop : List Byte := [0xA5, 0x00, 0x60, 0x10, 0x06, 0x01, 0x04]

/-- The encoder payload of CMD.SEL_LOCAL(N) (R87, R189). -/
def payloadSelLocal (n : Byte) : List Byte := [0xA5, 0x00, 0x60, 0x10, 0x05, 0x01, selLocalByte n]

/-- The encoder payload of CMD.SEL_EXT(N) (R87, R190). -/
def payloadSelExt (n : Byte) : List Byte :=
  [0xA5, 0x00, 0x60, 0x10, 0x01, 0x04, 0x03, 0x21, 0x00, selExtByte n]

/-- The encoder payload of CMD.SAVE(N, V) (R87, R191). -/
def payloadSave (n : Byte) (v : Word16) : List Byte :=
  [0xA5, 0x00, 0x60, 0x10, 0x01, 0x04, 0x03, saveByte n, hi v, lo v]

/-- The encoder payload of CMD.SPEED(R) (R87, R192). -/
def payloadSpeed (r : Word16) : List Byte :=
  [0xA5, 0x00, 0x60, 0x10, 0x0A, 0x04, 0x02, 0xC4, hi r, lo r]

/-- The encoder payload of CMD.FLOW(F) (R87, R193). -/
def payloadFlow (f : Byte) : List Byte :=
  [0xA5, 0x00, 0x60, 0x10, 0x09, 0x04, 0x02, 0xC4, 0x00, f]

end Sys2Proof.Machine
end

