-- ==== Sys2Proof/Syntax.lean ====
section
/-! DEFINITION. The instructions (one constructor per row of spec/opcode_table.json), the transactions at the block's
input ports, and what decoding a transaction answers. -/

namespace Sys2Proof

/-- One constructor per row of spec/opcode_table.json: for this block "instruction" is an operation of R11, a command
frame of R87, a received-frame class of R90 or the generic frame of R80 (00_scope section 6). A clock sample is a
number of milliseconds; the port takes its CLK_W low bits (R14, R34). -/
inductive Instr where
  /-- FRAME (R80): a whole frame arrives on the link, every byte with the clock sample `t` (log 6). `r0`..`r3` are
  positions 4..7, `payload` the length-payload, `ck` the trailer as received. -/
  | frame (r0 r1 r2 r3 : Byte) (payload : List Byte) (ck : Word16) (t : Nat)
  /-- CMD.REQ_STATUS (R184). -/
  | cmdReqStatus
  /-- CMD.FORCE_LOCAL (R185). -/
  | cmdForceLocal
  /-- CMD.FORCE_REMOTE (R186). -/
  | cmdForceRemote
  /-- CMD.RUN (R187). -/
  | cmdRun
  /-- CMD.STOP (R188). -/
  | cmdStop
  /-- CMD.SEL_LOCAL(N) (R189). -/
  | cmdSelLocal (n : Byte)
  /-- CMD.SEL_EXT(N) (R190). -/
  | cmdSelExt (n : Byte)
  /-- CMD.SAVE(N, V) (R191). -/
  | cmdSave (n : Byte) (v : Word16)
  /-- CMD.SPEED(R) (R192). -/
  | cmdSpeed (r : Word16)
  /-- CMD.FLOW(F) (R193). -/
  | cmdFlow (f : Byte)
  /-- RX.EXT_PROG@60 (R212): INTERPRET of an accepted frame of this class; so the next fourteen rows. -/
  | rxExtProg60 (f : Frame)
  /-- RX.EXT_PROG@61 (R212). -/
  | rxExtProg61 (f : Frame)
  /-- RX.EXT_PROG@62 (R212). -/
  | rxExtProg62 (f : Frame)
  /-- RX.LOCAL_CTRL@60 (R213). -/
  | rxLocalCtrl60 (f : Frame)
  /-- RX.LOCAL_CTRL@61 (R213). -/
  | rxLocalCtrl61 (f : Frame)
  /-- RX.LOCAL_CTRL@62 (R213). -/
  | rxLocalCtrl62 (f : Frame)
  /-- RX.REMOTE_CTRL@60 (R214). -/
  | rxRemoteCtrl60 (f : Frame)
  /-- RX.REMOTE_CTRL@61 (R214). -/
  | rxRemoteCtrl61 (f : Frame)
  /-- RX.REMOTE_CTRL@62 (R214). -/
  | rxRemoteCtrl62 (f : Frame)
  /-- RX.LOCAL_PROG@60 (R215). -/
  | rxLocalProg60 (f : Frame)
  /-- RX.LOCAL_PROG@61 (R215). -/
  | rxLocalProg61 (f : Frame)
  /-- RX.LOCAL_PROG@62 (R215). -/
  | rxLocalProg62 (f : Frame)
  /-- RX.STATUS@60 (R216). -/
  | rxStatus60 (f : Frame)
  /-- RX.STATUS@61 (R216). -/
  | rxStatus61 (f : Frame)
  /-- RX.STATUS@62 (R216). -/
  | rxStatus62 (f : Frame)
  /-- RESET (R280). -/
  | reset
  /-- FEED(b) (R120). -/
  | feed (b : Byte)
  /-- RXBYTE(b, t) (R152). -/
  | rxByte (b : Byte) (t : Nat)
  /-- SCHED(t) (R153, R154). -/
  | sched (t : Nat)
  /-- ENQ(f) (R156). -/
  | enq (f : Frame)
  /-- ENCODE(p) (R180). -/
  | encodePayload (p : List Byte)
  /-- INTERPRET(frame) (R210). -/
  | interpret (f : Frame)
  /-- TICK(((b1,t1), ..., (bk,tk)), t) (R157). -/
  | tick (drained : List (Byte × Nat)) (t : Nat)
deriving DecidableEq, Repr

/-- What stands at the block's inputs: the port transactions of R34, the tick callback with the bytes the transport
makes available (R157), the unit contracts (R120, R156, R180, R210), and three bulk forms of the model's own
(`link`, `accepted`, `coded`; log 9). -/
inductive Transaction where
  /-- `rst` (R34). -/
  | rst
  /-- `rx_valid` with `rx_data[7:0]`, `now` sampled (R34). -/
  | rx (data : Byte) (now : Nat)
  /-- `tick` with `now` sampled (R34). -/
  | tick (now : Nat)
  /-- `cmd_valid` with `cmd_op[3:0]`, `cmd_n[7:0]`, `cmd_v[15:0]` (R34, R94). -/
  | cmd (op : BitVec 4) (n : Byte) (v : Word16)
  /-- One invocation of the tick callback, with the available bytes and their samples (R157). -/
  | hostTick (drained : List (Byte × Nat)) (now : Nat)
  /-- Bytes on the link, a whole frame or any others, all with one sample (R80, R95's `rx` line). -/
  | link (bytes : List Byte) (now : Nat)
  /-- An accepted frame handed to the interpreter by its class (R90). -/
  | accepted (f : Frame)
  /-- The contract `feed(byte)` (R120). -/
  | feedCall (b : Byte)
  /-- The operation ENQ(f) (R156). -/
  | enqCall (f : Frame)
  /-- The contract `encode(payload)` (R180). -/
  | encodeCall (p : List Byte)
  /-- The contract `interpret(frame)` (R210). -/
  | interpretCall (f : Frame)
  /-- Bytes read by the rows of spec/opcode_table.json (R96); where they are no row, bytes on the link. -/
  | coded (bytes : List Byte)
deriving DecidableEq, Repr

/-- What decoding a transaction answers. -/
inductive Decoded where
  /-- The operation the transaction stands for. -/
  | instr (i : Instr)
  /-- The spec says that the transaction is ignored, without effect (R94 codes 10..15; R219). -/
  | ignored
  /-- The bytes are no row of the opcode table as a whole (R80, R96). The link still delivers them, one RXBYTE per byte
  with the sample `now` (R95, R151). -/
  | noRow (bytes : List Byte) (now : Nat)
deriving DecidableEq, Repr

end Sys2Proof
end

