-- ==== Sys2Proof/WellFormed.lean ====
section
/-! DEFINITION. Which instructions are well formed, the operand conditions the spec states for a row, and which
transactions are: those within the contract of the interpreter. -/

namespace Sys2Proof

/-- The layout of an accepted frame: `frame[0] = A5` and length `L + 8` with `L = frame[5]` (R85, R132). The trailer's
value is the validator's business and is not looked at here (log 9). -/
def Frame.shaped (f : Frame) : Bool :=
  f[0]? == some 0xA5#8 && (match f[5]? with
    | some l => f.length == l.toNat + 8
    | none => false)

/-- `frame[3]` and `frame[4]` have the given values (R90, R91). -/
def Frame.hasIds (f : Frame) (f3 f4 : Byte) : Bool :=
  f[3]? == some f3 && f[4]? == some f4

/-- `frame[6]` has the given value (R90). -/
def Frame.hasFirst (f : Frame) (f6 : Byte) : Bool :=
  f[6]? == some f6

/-- FRAME: the length byte counts the length-payload, so at most 255 bytes (R81). The RX rows: an accepted frame of
the class (R90, R96). INTERPRET: an accepted frame (R210). All other operands are free. -/
def Instr.wf : Instr → Bool
  | .frame _ _ _ _ payload _ _ => decide (payload.length ≤ 255)
  | .cmdReqStatus => true
  | .cmdForceLocal => true
  | .cmdForceRemote => true
  | .cmdRun => true
  | .cmdStop => true
  | .cmdSelLocal _ => true
  | .cmdSelExt _ => true
  | .cmdSave _ _ => true
  | .cmdSpeed _ => true
  | .cmdFlow _ => true
  | .rxExtProg60 f => f.shaped && f.hasIds 0x60 0x01
  | .rxExtProg61 f => f.shaped && f.hasIds 0x61 0x01
  | .rxExtProg62 f => f.shaped && f.hasIds 0x62 0x01
  | .rxLocalCtrl60 f => f.shaped && f.hasIds 0x60 0x04 && f.hasFirst 0x00
  | .rxLocalCtrl61 f => f.shaped && f.hasIds 0x61 0x04 && f.hasFirst 0x00
  | .rxLocalCtrl62 f => f.shaped && f.hasIds 0x62 0x04 && f.hasFirst 0x00
  | .rxRemoteCtrl60 f => f.shaped && f.hasIds 0x60 0x04 && f.hasFirst 0xFF
  | .rxRemoteCtrl61 f => f.shaped && f.hasIds 0x61 0x04 && f.hasFirst 0xFF
  | .rxRemoteCtrl62 f => f.shaped && f.hasIds 0x62 0x04 && f.hasFirst 0xFF
  | .rxLocalProg60 f => f.shaped && f.hasIds 0x60 0x05
  | .rxLocalProg61 f => f.shaped && f.hasIds 0x61 0x05
  | .rxLocalProg62 f => f.shaped && f.hasIds 0x62 0x05
  | .rxStatus60 f => f.shaped && f.hasIds 0x60 0x07
  | .rxStatus61 f => f.shaped && f.hasIds 0x61 0x07
  | .rxStatus62 f => f.shaped && f.hasIds 0x62 0x07
  | .reset => true
  | .feed _ => true
  | .rxByte _ _ => true
  | .sched _ => true
  | .enq _ => true
  | .encodePayload _ => true
  | .interpret f => f.shaped
  | .tick _ _ => true

/-- The interpreter is "called only on Validator-accepted frames" (R210): a transaction that hands it a byte string
hands it an accepted frame. All other transactions are free. -/
def Transaction.wf : Transaction → Bool
  | .accepted f => f.shaped
  | .interpretCall f => f.shaped
  | .rst => true
  | .rx _ _ => true
  | .tick _ => true
  | .cmd _ _ _ => true
  | .hostTick _ _ => true
  | .link _ _ => true
  | .feedCall _ => true
  | .enqCall _ => true
  | .encodeCall _ => true
  | .coded _ => true

end Sys2Proof
end

