-- ==== Sys2Proof/Decode.lean ====
section
/-! DEFINITION. Decoding: from a transaction at the inputs to an operation (the command-port codes of R94, the frame
layout of R80, the received-frame classes of R90, the rows of spec/opcode_table.json by match and mask, R96); the
encoder beside it; and the opcode table's own words. -/

namespace Sys2Proof

open Machine

/-- `(bytes AND mask) == match` over the bytes a row's `match` covers (R96). -/
def maskMatch (pattern mask bytes : List Byte) : Bool :=
  decide (List.zipWith (· &&& ·) (bytes.take pattern.length) mask = pattern)

/-- A CMD row of spec/opcode_table.json: `match`, `mask`, and how its variable bytes give the arguments. -/
structure CmdRow where
  pattern : List Byte
  mask : List Byte
  read : List Byte → Option Instr

/-- An RXCLASS row of spec/opcode_table.json: `match` and `mask` over frame indices 0..6. -/
structure RxRow where
  pattern : List Byte
  mask : List Byte
  make : Frame → Instr

/-- The fixed CMD rows (R184 to R188): every byte is given, the trailer too. -/
def fixedCmdRows : List CmdRow := [
  ⟨[0xFF, 0x00, 0xFF, 0xA5, 0x00, 0x60, 0x10, 0x07, 0x00, 0x01, 0x1C],
   [0xFF, 0xFF, 0xFF, 0xFF, 0xFF, 0xFF, 0xFF, 0xFF, 0xFF, 0xFF, 0xFF], fun _ => some .cmdReqStatus⟩,
  ⟨[0xFF, 0x00, 0xFF, 0xA5, 0x00, 0x60, 0x10, 0x04, 0x01, 0x00, 0x01, 0x1A],
   [0xFF, 0xFF, 0xFF, 0xFF, 0xFF, 0xFF, 0xFF, 0xFF, 0xFF, 0xFF, 0xFF, 0xFF], fun _ => some .cmdForceLocal⟩,
  ⟨[0xFF, 0x00, 0xFF, 0xA5, 0x00, 0x60, 0x10, 0x04, 0x01, 0xFF, 0x02, 0x19],
   [0xFF, 0xFF, 0xFF, 0xFF, 0xFF, 0xFF, 0xFF, 0xFF, 0xFF, 0xFF, 0xFF, 0xFF], fun _ => some .cmdForceRemote⟩,
  ⟨[0xFF, 0x00, 0xFF, 0xA5, 0x00, 0x60, 0x10, 0x06, 0x01, 0x0A, 0x01, 0x26],
   [0xFF, 0xFF, 0xFF, 0xFF, 0xFF, 0xFF, 0xFF, 0xFF, 0xFF, 0xFF, 0xFF, 0xFF], fun _ => some .cmdRun⟩,
  ⟨[0xFF, 0x00, 0xFF, 0xA5, 0x00, 0x60, 0x10, 0x06, 0x01, 0x04, 0x01, 0x20],
   [0xFF, 0xFF, 0xFF, 0xFF, 0xFF, 0xFF, 0xFF, 0xFF, 0xFF, 0xFF, 0xFF, 0xFF], fun _ => some .cmdStop⟩]

/-- The CMD rows with arguments (R189 to R193). The mask gives the variable bytes and the trailer no fixed bits, so
they are not tested (R96; log 9). SEL_EXT writes a multiple of 8 only, so another value in its place is the SAVE frame
of the same shape (N = 251, V < 256); SEL_EXT(N) and SEL_EXT(N + 32) are one frame, read with N < 32 (R190). -/
def argCmdRows : List CmdRow := [
  ⟨[0xFF, 0x00, 0xFF, 0xA5, 0x00, 0x60, 0x10, 0x05, 0x01, 0x00, 0x00, 0x00],
   [0xFF, 0xFF, 0xFF, 0xFF, 0xFF, 0xFF, 0xFF, 0xFF, 0xFF, 0x00, 0x00, 0x00],
   fun b => some (.cmdSelLocal (byteAt b 9 - 1))⟩,
  ⟨[0xFF, 0x00, 0xFF, 0xA5, 0x00, 0x60, 0x10, 0x01, 0x04, 0x03, 0x21, 0x00, 0x00, 0x00, 0x00],
   [0xFF, 0xFF, 0xFF, 0xFF, 0xFF, 0xFF, 0xFF, 0xFF, 0xFF, 0xFF, 0xFF, 0xFF, 0x00, 0x00, 0x00],
   fun b => if (byteAt b 12).toNat % 8 = 0 then some (.cmdSelExt (BitVec.ofNat 8 ((byteAt b 12).toNat / 8))) else none⟩,
  ⟨[0xFF, 0x00, 0xFF, 0xA5, 0x00, 0x60, 0x10, 0x01, 0x04, 0x03, 0x00, 0x00, 0x00, 0x00, 0x00],
   [0xFF, 0xFF, 0xFF, 0xFF, 0xFF, 0xFF, 0xFF, 0xFF, 0xFF, 0xFF, 0x00, 0x00, 0x00, 0x00, 0x00],
   fun b => some (.cmdSave (byteAt b 10 - 0x26) (be16 (byteAt b 11) (byteAt b 12)))⟩,
  ⟨[0xFF, 0x00, 0xFF, 0xA5, 0x00, 0x60, 0x10, 0x0A, 0x04, 0x02, 0xC4, 0x00, 0x00, 0x00, 0x00],
   [0xFF, 0xFF, 0xFF, 0xFF, 0xFF, 0xFF, 0xFF, 0xFF, 0xFF, 0xFF, 0xFF, 0x00, 0x00, 0x00, 0x00],
   fun b => some (.cmdSpeed (be16 (byteAt b 11) (byteAt b 12)))⟩,
  ⟨[0xFF, 0x00, 0xFF, 0xA5, 0x00, 0x60, 0x10, 0x09, 0x04, 0x02, 0xC4, 0x00, 0x00, 0x00, 0x00],
   [0xFF, 0xFF, 0xFF, 0xFF, 0xFF, 0xFF, 0xFF, 0xFF, 0xFF, 0xFF, 0xFF, 0xFF, 0x00, 0x00, 0x00],
   fun b => some (.cmdFlow (byteAt b 12))⟩]

/-- The fifteen RXCLASS rows, in the table's order (R90, R96). -/
def rxRows : List RxRow := [
  ⟨[0xA5, 0x00, 0x00, 0x60, 0x01, 0x00, 0x00], [0xFF, 0x00, 0x00, 0xFF, 0xFF, 0x00, 0x00], .rxExtProg60⟩,
  ⟨[0xA5, 0x00, 0x00, 0x61, 0x01, 0x00, 0x00], [0xFF, 0x00, 0x00, 0xFF, 0xFF, 0x00, 0x00], .rxExtProg61⟩,
  ⟨[0xA5, 0x00, 0x00, 0x62, 0x01, 0x00, 0x00], [0xFF, 0x00, 0x00, 0xFF, 0xFF, 0x00, 0x00], .rxExtProg62⟩,
  ⟨[0xA5, 0x00, 0x00, 0x60, 0x04, 0x00, 0x00], [0xFF, 0x00, 0x00, 0xFF, 0xFF, 0x00, 0xFF], .rxLocalCtrl60⟩,
  ⟨[0xA5, 0x00, 0x00, 0x61, 0x04, 0x00, 0x00], [0xFF, 0x00, 0x00, 0xFF, 0xFF, 0x00, 0xFF], .rxLocalCtrl61⟩,
  ⟨[0xA5, 0x00, 0x00, 0x62, 0x04, 0x00, 0x00], [0xFF, 0x00, 0x00, 0xFF, 0xFF, 0x00, 0xFF], .rxLocalCtrl62⟩,
  ⟨[0xA5, 0x00, 0x00, 0x60, 0x04, 0x00, 0xFF], [0xFF, 0x00, 0x00, 0xFF, 0xFF, 0x00, 0xFF], .rxRemoteCtrl60⟩,
  ⟨[0xA5, 0x00, 0x00, 0x61, 0x04, 0x00, 0xFF], [0xFF, 0x00, 0x00, 0xFF, 0xFF, 0x00, 0xFF], .rxRemoteCtrl61⟩,
  ⟨[0xA5, 0x00, 0x00, 0x62, 0x04, 0x00, 0xFF], [0xFF, 0x00, 0x00, 0xFF, 0xFF, 0x00, 0xFF], .rxRemoteCtrl62⟩,
  ⟨[0xA5, 0x00, 0x00, 0x60, 0x05, 0x00, 0x00], [0xFF, 0x00, 0x00, 0xFF, 0xFF, 0x00, 0x00], .rxLocalProg60⟩,
  ⟨[0xA5, 0x00, 0x00, 0x61, 0x05, 0x00, 0x00], [0xFF, 0x00, 0x00, 0xFF, 0xFF, 0x00, 0x00], .rxLocalProg61⟩,
  ⟨[0xA5, 0x00, 0x00, 0x62, 0x05, 0x00, 0x00], [0xFF, 0x00, 0x00, 0xFF, 0xFF, 0x00, 0x00], .rxLocalProg62⟩,
  ⟨[0xA5, 0x00, 0x00, 0x60, 0x07, 0x00, 0x00], [0xFF, 0x00, 0x00, 0xFF, 0xFF, 0x00, 0x00], .rxStatus60⟩,
  ⟨[0xA5, 0x00, 0x00, 0x61, 0x07, 0x00, 0x00], [0xFF, 0x00, 0x00, 0xFF, 0xFF, 0x00, 0x00], .rxStatus61⟩,
  ⟨[0xA5, 0x00, 0x00, 0x62, 0x07, 0x00, 0x00], [0xFF, 0x00, 0x00, 0xFF, 0xFF, 0x00, 0x00], .rxStatus62⟩]

/-- The received-frame class of an accepted frame, if it has one (R90, R96, R219). -/
def readClass (f : Frame) : Option Instr :=
  (rxRows.find? fun r => maskMatch r.pattern r.mask f).map fun r => r.make f

/-- The command whose frame these bytes are, by the CMD rows (R87, R96). -/
def readCommand (bytes : List Byte) : Option Instr :=
  (fixedCmdRows ++ argCmdRows).findSome? fun r => if maskMatch r.pattern r.mask bytes then r.read bytes else none

/-- The fields of one whole frame on the link: header `FF 00 FF A5`, length `L + 11` (R80, R81, R83). -/
def readLink (bytes : List Byte) (t : Nat) : Option Instr :=
  let l := (byteAt bytes Config.lenPos).toNat
  if bytes.take 4 = Config.linkHeader ∧ bytes.length = l + Config.frameOverhead then
    some (.frame (byteAt bytes 4) (byteAt bytes 5) (byteAt bytes 6) (byteAt bytes 7) (slice 9 (9 + l) bytes)
      (be16 (byteAt bytes (9 + l)) (byteAt bytes (10 + l))) t)
  else none

/-- The row of the opcode table these bytes belong to: a frame on the link is a command's where a CMD row matches and
a FRAME otherwise; an accepted frame is read by the RXCLASS rows (R96; log 9). -/
def readRow (bytes : List Byte) : Option Instr :=
  match readLink bytes 0 with
  | some i => some ((readCommand bytes).getD i)
  | none => if Frame.shaped bytes then readClass bytes else none

/-- The command port: `cmd_op` 0..9 in the order of the document's table, 10..15 ignored (R94). -/
def decodeCmdPort (op : BitVec 4) (n : Byte) (v : Word16) : Decoded :=
  match op.toNat with
  | 0 => .instr .cmdReqStatus
  | 1 => .instr .cmdForceLocal
  | 2 => .instr .cmdForceRemote
  | 3 => .instr .cmdRun
  | 4 => .instr .cmdStop
  | 5 => .instr (.cmdSelLocal n)
  | 6 => .instr (.cmdSelExt n)
  | 7 => .instr (.cmdSave n v)
  | 8 => .instr (.cmdSpeed v)
  | 9 => .instr (.cmdFlow n)
  | _ => .ignored

/-- The operation a transaction at the inputs stands for (R34, R94). Total: bytes that are no row as a whole are
answered as such, by `noRow`; an accepted frame of no class is ignored (R219). -/
def decode : Transaction → Decoded
  | .rst => .instr .reset
  | .rx b now => .instr (.rxByte b now)
  | .tick now => .instr (.sched now)
  | .cmd op n v => decodeCmdPort op n v
  | .hostTick drained now => .instr (.tick drained now)
  | .link bytes now =>
    match readLink bytes now with
    | some i => .instr i
    | none => .noRow bytes now
  | .accepted f =>
    match readClass f with
    | some i => .instr i
    | none => .ignored
  | .feedCall b => .instr (.feed b)
  | .enqCall f => .instr (.enq f)
  | .encodeCall p => .instr (.encodePayload p)
  | .interpretCall f => .instr (.interpret f)
  | .coded bytes =>
    match readRow bytes with
    | some i => .instr i
    | none => .noRow bytes 0

/-- The transaction that presents an operation at the inputs, from the port list (R34), the command codes (R94) and
the frame format (R80). -/
def encode : Instr → Transaction
  | .frame r0 r1 r2 r3 payload ck t => .link (linkBytes r0 r1 r2 r3 payload ck) t
  | .cmdReqStatus => .cmd 0 0 0
  | .cmdForceLocal => .cmd 1 0 0
  | .cmdForceRemote => .cmd 2 0 0
  | .cmdRun => .cmd 3 0 0
  | .cmdStop => .cmd 4 0 0
  | .cmdSelLocal n => .cmd 5 n 0
  | .cmdSelExt n => .cmd 6 n 0
  | .cmdSave n v => .cmd 7 n v
  | .cmdSpeed r => .cmd 8 0 r
  | .cmdFlow f => .cmd 9 f 0
  | .rxExtProg60 f => .accepted f
  | .rxExtProg61 f => .accepted f
  | .rxExtProg62 f => .accepted f
  | .rxLocalCtrl60 f => .accepted f
  | .rxLocalCtrl61 f => .accepted f
  | .rxLocalCtrl62 f => .accepted f
  | .rxRemoteCtrl60 f => .accepted f
  | .rxRemoteCtrl61 f => .accepted f
  | .rxRemoteCtrl62 f => .accepted f
  | .rxLocalProg60 f => .accepted f
  | .rxLocalProg61 f => .accepted f
  | .rxLocalProg62 f => .accepted f
  | .rxStatus60 f => .accepted f
  | .rxStatus61 f => .accepted f
  | .rxStatus62 f => .accepted f
  | .reset => .rst
  | .feed b => .feedCall b
  | .rxByte b t => .rx b t
  | .sched t => .tick t
  | .enq f => .enqCall f
  | .encodePayload p => .encodeCall p
  | .interpret f => .interpretCall f
  | .tick drained t => .hostTick drained t

/-- The bytes of a table word: byte `k` is bits `8k+7..8k`. -/
def wordBytes (nbits w : Nat) : List Byte :=
  (List.range (nbits / 8)).map fun k => BitVec.ofNat 8 (w / 256 ^ k)

/-- How many bytes an instruction of the table has, read from its own length byte (R83, R85). -/
def codedLength (bytes : List Byte) : Nat :=
  if byteAt bytes 0 = 0xFF#8 then (byteAt bytes Config.lenPos).toNat + Config.frameOverhead
  else (byteAt bytes 5).toNat + 8

/-- The instruction's bytes: those given, then zeros to its end. -/
def padCoded (bytes : List Byte) : List Byte :=
  let long := bytes ++ List.replicate Config.rxBufCap 0
  long.take (codedLength long)

/-- The bytes of a word of the table, first byte lowest. The table writes `match` in hex with the first byte leftmost,
so read as ONE number the first byte is the highest: where the bytes are no row in the one numbering, the other is
taken (log 13). -/
def tableBytes (nbits w : Nat) : List Byte :=
  let low := padCoded (wordBytes nbits w)
  if (readRow low).isSome then low else padCoded (wordBytes nbits w).reverse

/-- The instruction the decoder reads from a word of spec/opcode_table.json. -/
def decodeTableWord (nbits w : Nat) : Option Instr := readRow (tableBytes nbits w)

end Sys2Proof
end

