-- ==== Sys2Proof/Machine/State.lean ====
section
/-! DEFINITION. The state of the block (10_state R20 to R36), its output events (00_scope R12), the reasons a step can
stop, and the state right after reset (10_state R33). -/

namespace Sys2Proof.Machine

/-- The causes of a rejection (R241). -/
inductive Cause where
  | hdr0
  | hdr1
  | hdr2
  | hdr3
  | cksum
deriving DecidableEq, Repr

/-- What `feed` reports after a byte (R120): the value `r` of `RESULT(r)`. -/
inductive FeedResult where
  | incomplete
  | accepted (f : Frame)
  | rejected (c : Cause)
deriving DecidableEq, Repr

/-- Severity of a diagnostic (R12, R257). -/
inductive Severity where
  | info
  | warn
deriving DecidableEq, Repr

/-- The diagnostics (R257). -/
inductive DiagCode where
  | frameRx
  | cksumMismatch
  | malformedOutbound
  | extProg
  | localCtrl
  | remoteCtrl
  | localProg
  | runUnknown
  | txqOverflow
deriving DecidableEq, Repr

/-- The data of a diagnostic, by the last columns of R257's table. -/
inductive DiagData where
  | none
  | byte (b : Byte)
  | sums (computed received : Word16)
  | bytes (f : Frame)
deriving DecidableEq, Repr

/-- The output events (R12, R35). -/
inductive Event where
  | result (r : FeedResult)
  | txFlush
  | txWrite (f : Frame)
  | pubRun (v : Bool)
  | pubPower (v : Word16)
  | pubSpeed (v : Word16)
  | diag (sev : Severity) (code : DiagCode) (data : DiagData)
deriving DecidableEq, Repr

/-- The two states of the Transmit Scheduler (R25, R150). -/
inductive SchedState where
  | busy
  | quiet
deriving DecidableEq, Repr

/-- Why the machine stops with a fault. -/
inductive Fault where
  /-- `InterpShortFrame` (R221, R260, D15): raised by a status report (INTERPRET, FEED on acceptance, RXBYTE, TICK,
  FRAME and the RX.STATUS rows) whose frame has fewer than 13 bytes. Safe: the spec itself makes it a fault, after
  which no claim holds. -/
  | interpShortFrame
  /-- Raised by INTERPRET and the RX rows on a byte string that lacks a byte the rule reads. The spec calls INTERPRET on
  accepted frames only, and those have at least 8 bytes (R210), so no well-formed instruction reaches it. Safe (log 8). -/
  | frameByteAbsent
deriving DecidableEq, Repr

/-- Why the machine has no meaning for an operation. Nothing is refused: every operation has its meaning and every
transaction an effect. -/
inductive Refusal where
  /-- An instruction that has no meaning yet; could be raised by an arm of exec only, and by none is. Safe. -/
  | notModelled (mnemonic : String)
deriving DecidableEq, Repr

/-- The state. `rxBuf` to `obsSpeed` are the spec's whole state (R20). `cfg` holds the parameters, which no operation
writes (R20, R28; log 1). `inputs`, `out` and `ret` are the model's own: what waits at the input ports (R13; log 3),
what the output ports have emitted (R12; log 4), and what the latest ENCODE returned (R180; log 5). -/
structure State where
  /-- MON_*, CLK_W, TXQ_DEPTH (R7, R28). -/
  cfg : Params
  /-- `rx_buf`, the Receive Buffer (R21). -/
  rxBuf : List Byte
  /-- `txq`, the Transmit Queue, front first (R23). -/
  txq : List Frame
  /-- `last_activity`, the Link Quiet Timer, in milliseconds modulo 2^CLK_W (R24). -/
  lastActivity : Nat
  /-- `sched_state` (R25). -/
  schedState : SchedState
  /-- `obs_running` (R27). -/
  obsRunning : Option Bool
  /-- `obs_power` (R27). -/
  obsPower : Option Word16
  /-- `obs_speed` (R27). -/
  obsSpeed : Option Word16
  /-- Output events emitted so far, oldest first. -/
  out : List Event
  /-- The frame the latest ENCODE returned. -/
  ret : Option Frame
  /-- Transactions waiting at the input ports, oldest first. -/
  inputs : List Transaction
deriving DecidableEq, Repr

/-- The state right after reset (R33): every register at the spec's value, no input waiting, nothing emitted. -/
def State.reset : State :=
  { cfg := Config.defaults
    rxBuf := []
    txq := []
    lastActivity := 0
    schedState := .busy
    obsRunning := none
    obsPower := none
    obsSpeed := none
    out := []
    ret := none
    inputs := [] }

end Sys2Proof.Machine
end

