-- ==== Sys2Proof/Machine/Flags.lean ====
section
/-! DEFINITION. The timer arithmetic and the one flag of the block (10_state R25; 41_transmit_scheduler R150, R153,
R158), and the numeric codes of the ports (60_exceptions R241, R257). -/

namespace Sys2Proof.Machine

/-- The value of the clock port for a time of `t` milliseconds: its `w` low bits (R14, R34). -/
def sample (w t : Nat) : Nat := t % 2 ^ w

/-- `elapsed(t, t0) = (t - t0) mod 2^w` (R9, R158). -/
def elapsed (w t t0 : Nat) : Nat := (t % 2 ^ w + 2 ^ w - t0 % 2 ^ w) % 2 ^ w

/-- The gate: the link has been silent for strictly more than QUIET_MS (R153, 90_conflicts C11). -/
def gateOpen (w t t0 : Nat) : Bool := decide (Config.quietMs < elapsed w t t0)

/-- `sched_state` after the first step of SCHED (R150, R153): it never sets BUSY. -/
def flagAfterGate (w t t0 : Nat) (old : SchedState) : SchedState :=
  if gateOpen w t t0 then .quiet else old

/-- `res_cause` (R241). -/
def causeCode : Cause → BitVec 3
  | .hdr0 => 0
  | .hdr1 => 1
  | .hdr2 => 2
  | .hdr3 => 3
  | .cksum => 4

/-- `diag_code` (R257). -/
def diagCodeNumber : DiagCode → BitVec 4
  | .frameRx => 0
  | .cksumMismatch => 1
  | .malformedOutbound => 2
  | .extProg => 3
  | .localCtrl => 4
  | .remoteCtrl => 5
  | .localProg => 6
  | .runUnknown => 7
  | .txqOverflow => 8

end Sys2Proof.Machine
end

