-- ==== Sys2Proof/Machine/Ops.lean ====
section
/-! DEFINITION. The named operations over the state: the output list, the Receive Buffer, the Transmit Queue, the timer,
the observables, the two absorbed errors (the block's whole exception entry, 60_exceptions R244, R248), and taking the
next transaction from the inputs. -/

namespace Sys2Proof.Machine

/-- What a meaning answers. -/
abbrev Result := Host.Outcome State Fault Refusal

/-- Sequencing: go on from a next state, stop at a fault or a refusal. -/
def andThen (r : Result) (k : State → Result) : Result :=
  match r with
  | .next s => k s
  | .fault f => .fault f
  | .refused x => .refused x

/-- `emit E` (R10, R12). -/
def State.emit (s : State) (e : Event) : State := { s with out := s.out ++ [e] }

/-- The Receive Buffer gets a new content. -/
def State.withRx (s : State) (m : List Byte) : State := { s with rxBuf := m }

/-- The Transmit Queue gets a new content. -/
def State.withTxq (s : State) (q : List Frame) : State := { s with txq := q }

/-- `sched_state <- x`. -/
def State.withSched (s : State) (x : SchedState) : State := { s with schedState := x }

/-- `last_activity <- t ; sched_state <- BUSY` (R151, R154). -/
def State.stampBusy (s : State) (t : Nat) : State :=
  { s with lastActivity := sample s.cfg.clkW t, schedState := .busy }

/-- `obs_running <- v ; emit PUB_RUN(v)` (R216). -/
def State.publishRun (s : State) (v : Bool) : State := { s with obsRunning := some v, out := s.out ++ [.pubRun v] }

/-- `obs_power <- v ; emit PUB_POWER(v)` (R216). -/
def State.publishPower (s : State) (v : Word16) : State :=
  { s with obsPower := some v, out := s.out ++ [.pubPower v] }

/-- `obs_speed <- v ; emit PUB_SPEED(v)` (R216). -/
def State.publishSpeed (s : State) (v : Word16) : State :=
  { s with obsSpeed := some v, out := s.out ++ [.pubSpeed v] }

/-- The value an ENCODE call returns (R180; log 5). -/
def State.withRet (s : State) (f : Frame) : State := { s with ret := some f }

/-- The inputs after a transaction has been taken, or before one is placed. -/
def State.withInputs (s : State) (l : List Transaction) : State := { s with inputs := l }

/-- All registers of R20 at their reset values (R280); parameters and ports stand. -/
def State.clearRegisters (s : State) : State :=
  { s with
    rxBuf := []
    txq := []
    lastActivity := 0
    schedState := .busy
    obsRunning := none
    obsPower := none
    obsSpeed := none }

/-- `append`, the one way a byte enters RX (R51, R121). -/
def Memory.append (m : List Byte) (b : Byte) : List Byte := m ++ [b]

/-- `clear` (R51). -/
def Memory.clear : List Byte := []

/-- `read`: `rx_buf[i]` (R51); the rules read below `rx_len` only. -/
def Memory.read (m : List Byte) (i : Nat) : Byte := byteAt m i

/-- What RX holds between operations (R22, R122 to R127, R133): a prefix of the link header, or the header and bytes
after it, fewer than the length byte asks for. -/
def Memory.wf (m : List Byte) : Bool :=
  decide (m.take 4 = Config.linkHeader.take m.length) &&
    (decide (m.length ≤ 8) || decide (m.length < (Memory.read m Config.lenPos).toNat + Config.frameOverhead))

/-- `rx_len`, the position counter (R22). -/
def State.rxLen (s : State) : Nat := s.rxBuf.length

/-- `st_rx_len[8:0]` (R35). -/
def State.stRxLen (s : State) : BitVec 9 := BitVec.ofNat 9 s.rxLen

/-- `st_quiet` (R35). -/
def State.stQuiet (s : State) : Bool := decide (s.schedState = .quiet)

/-- `st_txq_empty` (R35). -/
def State.stTxqEmpty (s : State) : Bool := s.txq.isEmpty

/-- `len(txq) = TXQ_DEPTH` for a finite depth (R64, R259); never for the unbounded queue. DESIGN CHOICE, log 14: a queue
already longer than its depth, outside the range R23 gives it and reached by no run, counts as full too. -/
def State.txqFull (s : State) : Bool :=
  match s.cfg.txqDepth with
  | none => false
  | some d => decide (d ≤ s.txq.length)

/-- `push_back`, or the overflow of a finite queue: the NEW frame is dropped with a warning (R52, R64, R156, R259; on a
queue longer than its depth, log 14). -/
def enqueue (f : Frame) (s : State) : State :=
  if s.txqFull then s.emit (.diag .warn .txqOverflow (.bytes f)) else s.withTxq (s.txq ++ [f])

/-- `incomplete` (R120). -/
def incomplete (s : State) : State := s.emit (.result .incomplete)

/-- `reject(cause)`, the absorbed FrameRejected (R131, R248): the buffer is cleared and the cause reported; nothing is
saved, no mode changes, and there is nothing to return from (R249). -/
def reject (c : Cause) (s : State) : State := (s.withRx Memory.clear).emit (.result (.rejected c))

/-- `discard`, the absorbed MalformedOutboundPacket (R182, R243): the packet is dropped with a warning. -/
def discardOutbound (pkt : Frame) (s : State) : State := s.emit (.diag .warn .malformedOutbound (.bytes pkt))

/-- The transmission of one frame: exactly TX_FLUSH, then TX_WRITE with the frame verbatim (R161). -/
def transmit (f : Frame) (s : State) : State := (s.emit .txFlush).emit (.txWrite f)

/-- Read `frame[i]` and go on with it; a frame without that byte is none the interpreter is called on (R210, log 8). -/
def withFrameByte (f : Frame) (i : Nat) (k : Byte → Result) : Result :=
  match f[i]? with
  | some b => k b
  | none => .fault .frameByteAbsent

/-- What taking the next transaction gives: nothing waits, it is ignored, or there is an operation to run. The state is
the one with what was taken gone from the inputs. -/
inductive Fetched where
  | idle
  | ignored (s : State)
  | instr (i : Instr) (s : State)
deriving DecidableEq, Repr

/-- Bytes on the link arrive one RXBYTE at a time, left to right, all with one sample (R95, R151); those not yet taken
wait in front of the other inputs. No byte is no operation. -/
def arriving (bytes : List Byte) (now : Nat) (rest : List Transaction) (s : State) : Fetched :=
  match bytes with
  | [] => .ignored (s.withInputs rest)
  | b :: later => .instr (.rxByte b now) (s.withInputs (.link later now :: rest))

/-- Take the next transaction from the inputs (R13, R70). -/
def fetch (s : State) : Fetched :=
  match s.inputs with
  | [] => .idle
  | x :: rest =>
    match decode x with
    | .instr i => .instr i (s.withInputs rest)
    | .ignored => .ignored (s.withInputs rest)
    | .noRow bytes now => arriving bytes now rest s

/-- A table word placed as the next transaction. -/
def placeWord (nbits w : Nat) (s : State) : State :=
  s.withInputs (.coded (tableBytes nbits w) :: s.inputs)

end Sys2Proof.Machine
end

