-- ==== Sys2Proof/Machine/Encoder.lean ====
section
/-! DEFINITION. The Command Encoder: ENCODE, the self-check and the ten commands (42_command_encoder R180 to R195). -/

namespace Sys2Proof.Machine

/-- The self-check (R182): the sum over offsets 3 to len-2 (exclusive) against the two trailing bytes. -/
def selfCheck (pkt : Frame) : Bool :=
  checksum (slice 3 (pkt.length - 2) pkt) == be16 (byteAt pkt (pkt.length - 2)) (byteAt pkt (pkt.length - 1))

/-- Queue a built packet if its self-check holds, else discard it (R182, R183, R243). -/
def queueChecked (pkt : Frame) (s : State) : State :=
  if selfCheck pkt then enqueue pkt s else discardOutbound pkt s

/-- The four steps of every command (R183), from its payload on. -/
def command (p : List Byte) (s : State) : Result := .next (queueChecked (encodeFrame p) s)

/-- ENCODE (R180, R181): the built frame is returned; nothing else is touched. -/
def execEncodePayload (p : List Byte) (s : State) : Result := .next (s.withRet (encodeFrame p))

/-- CMD.REQ_STATUS (R184). -/
def execCmdReqStatus (s : State) : Result := command payloadReqStatus s

/-- CMD.FORCE_LOCAL (R185). -/
def execCmdForceLocal (s : State) : Result := command payloadForceLocal s

/-- CMD.FORCE_REMOTE (R186). -/
def execCmdForceRemote (s : State) : Result := command payloadForceRemote s

/-- CMD.RUN (R187). -/
def execCmdRun (s : State) : Result := command payloadRun s

/-- CMD.STOP (R188). -/
def execCmdStop (s : State) : Result := command payloadStop s

/-- CMD.SEL_LOCAL(N) (R189). -/
def execCmdSelLocal (n : Byte) (s : State) : Result := command (payloadSelLocal n) s

/-- CMD.SEL_EXT(N) (R190). -/
def execCmdSelExt (n : Byte) (s : State) : Result := command (payloadSelExt n) s

/-- CMD.SAVE(N, V) (R191). -/
def execCmdSave (n : Byte) (v : Word16) (s : State) : Result := command (payloadSave n v) s

/-- CMD.SPEED(R) (R192). -/
def execCmdSpeed (r : Word16) (s : State) : Result := command (payloadSpeed r) s

/-- CMD.FLOW(F) (R193). -/
def execCmdFlow (f : Byte) (s : State) : Result := command (payloadFlow f) s

end Sys2Proof.Machine
end

