-- ==== Sys2Proof/Machine/Reset.lean ====
section
/-! DEFINITION. RESET (70_reset_and_hazards R280, R282). -/

namespace Sys2Proof.Machine

/-- RESET (R280): the registers take their reset values; no event is emitted. -/
def execReset (s : State) : Result := .next s.clearRegisters

end Sys2Proof.Machine
end

