-- ==== Sys2Proof/Machine/Interpreter.lean ====
section
/-! DEFINITION. The Packet Interpreter: INTERPRET and the five received-frame classes, three rows each
(43_packet_interpreter R210 to R221). All indices are frame indices. -/

namespace Sys2Proof.Machine

/-- The relevance predicate, with its asymmetry (R91, R211). -/
def relevant (f3 f4 : Byte) : Bool := f3 == 0x60#8 || f3 == 0x61#8 || f3 == 0x62#8 || f4 == 0x64#8

/-- RX.EXT_PROG (R212): the program id is `frame[6]`. -/
def extProg (f : Frame) (s : State) : Result :=
  withFrameByte f 6 fun b => .next (s.emit (.diag .info .extProg (.byte b)))

/-- RX.LOCAL_CTRL (R213): nothing is extracted. -/
def localCtrl (s : State) : Result := .next (s.emit (.diag .info .localCtrl .none))

/-- RX.REMOTE_CTRL (R214): nothing is extracted. -/
def remoteCtrl (s : State) : Result := .next (s.emit (.diag .info .remoteCtrl .none))

/-- RX.LOCAL_PROG (R215): the program id is `frame[7]`. -/
def localProg (f : Frame) (s : State) : Result :=
  withFrameByte f 7 fun b => .next (s.emit (.diag .info .localProg (.byte b)))

/-- The run state of a status report (R216): 0 stopped, 1 running, else unknown (log only). -/
def reportRun (r : Byte) (s : State) : State :=
  if r = 0#8 then (if s.cfg.monRun then s.publishRun false else s)
  else if r = 1#8 then (if s.cfg.monRun then s.publishRun true else s)
  else s.emit (.diag .info .runUnknown (.byte r))

/-- The power of a status report (R216, R217). -/
def reportPower (v : Word16) (s : State) : State := if s.cfg.monPower then s.publishPower v else s

/-- The speed of a status report (R216, R217). -/
def reportSpeed (v : Word16) (s : State) : State := if s.cfg.monSpeed then s.publishSpeed v else s

/-- RX.STATUS (R216, R217): run, then power, then speed; a frame of fewer than 13 bytes is the fault (R221). -/
def statusReport (f : Frame) (s : State) : Result :=
  if f.length < Config.statusMinLen then .fault .interpShortFrame
  else
    .next (reportSpeed (be16 (byteAt f 11) (byteAt f 12))
      (reportPower (be16 (byteAt f 9) (byteAt f 10)) (reportRun (byteAt f 6) s)))

/-- The arm of INTERPRET for `frame[4] = 0x04` (R213, R214, R219). -/
def controlReport (f : Frame) (s : State) : Result :=
  withFrameByte f 6 fun b =>
    if b = 0x00#8 then localCtrl s else if b = 0xFF#8 then remoteCtrl s else .next s

/-- INTERPRET(frame) (R210, R211, R219). -/
def interpretFrame (f : Frame) (s : State) : Result :=
  withFrameByte f 3 fun f3 => withFrameByte f 4 fun f4 =>
    if relevant f3 f4 = false then .next s
    else if f4 = 0x01#8 then extProg f s
    else if f4 = 0x04#8 then controlReport f s
    else if f4 = 0x05#8 then localProg f s
    else if f4 = 0x07#8 then statusReport f s
    else .next s

/-- INTERPRET (R210). -/
def execInterpret (f : Frame) (s : State) : Result := interpretFrame f s

/-- RX.EXT_PROG@60 (R212). -/
def execRxExtProg60 (f : Frame) (s : State) : Result := extProg f s
/-- RX.EXT_PROG@61 (R212). -/
def execRxExtProg61 (f : Frame) (s : State) : Result := extProg f s
/-- RX.EXT_PROG@62 (R212). -/
def execRxExtProg62 (f : Frame) (s : State) : Result := extProg f s

/-- RX.LOCAL_CTRL@60 (R213). -/
def execRxLocalCtrl60 (s : State) : Result := localCtrl s
/-- RX.LOCAL_CTRL@61 (R213). -/
def execRxLocalCtrl61 (s : State) : Result := localCtrl s
/-- RX.LOCAL_CTRL@62 (R213). -/
def execRxLocalCtrl62 (s : State) : Result := localCtrl s

/-- RX.REMOTE_CTRL@60 (R214). -/
def execRxRemoteCtrl60 (s : State) : Result := remoteCtrl s
/-- RX.REMOTE_CTRL@61 (R214). -/
def execRxRemoteCtrl61 (s : State) : Result := remoteCtrl s
/-- RX.REMOTE_CTRL@62 (R214). -/
def execRxRemoteCtrl62 (s : State) : Result := remoteCtrl s

/-- RX.LOCAL_PROG@60 (R215). -/
def execRxLocalProg60 (f : Frame) (s : State) : Result := localProg f s
/-- RX.LOCAL_PROG@61 (R215). -/
def execRxLocalProg61 (f : Frame) (s : State) : Result := localProg f s
/-- RX.LOCAL_PROG@62 (R215). -/
def execRxLocalProg62 (f : Frame) (s : State) : Result := localProg f s

/-- RX.STATUS@60 (R216). -/
def execRxStatus60 (f : Frame) (s : State) : Result := statusReport f s
/-- RX.STATUS@61 (R216). -/
def execRxStatus61 (f : Frame) (s : State) : Result := statusReport f s
/-- RX.STATUS@62 (R216). -/
def execRxStatus62 (f : Frame) (s : State) : Result := statusReport f s

end Sys2Proof.Machine
end

