-- ==== Sys2Proof/Machine/Validator.lean ====
section
/-! DEFINITION. The Frame Validator: FEED (40_frame_validator R120 to R133). -/

namespace Sys2Proof.Machine

/-- One header position: the byte must have the given value, else the candidate is rejected (R122 to R125). -/
def headerByte (want : Byte) (c : Cause) (b : Byte) (s : State) : State :=
  if b = want then incomplete s else reject c s

/-- `accept()` (R130, R132): INTERPRET, then the FRAME_RX diagnostic, then the clear, then the result. -/
def accept (f : Frame) (s : State) : Result :=
  andThen (interpretFrame f s) fun t =>
    .next (((t.emit (.diag .info .frameRx (.bytes f))).withRx Memory.clear).emit (.result (.accepted f)))

/-- The computed sum of a whole candidate with length byte `l`: indices 3 to l + 8 (R84, R128). -/
def calcSum (m : List Byte) (l : Nat) : Word16 := checksum (slice 3 (l + 9) m)

/-- The received sum: indices l + 9 and l + 10, high byte first (R128). -/
def recvSum (m : List Byte) (l : Nat) : Word16 := be16 (Memory.read m (l + 9)) (Memory.read m (l + 10))

/-- A candidate that holds its required total (R128 to R130). -/
def judgeWhole (l : Nat) (s : State) : Result :=
  if calcSum s.rxBuf l = recvSum s.rxBuf l then accept (slice 3 (l + Config.frameOverhead) s.rxBuf) s
  else .next (reject .cksum (s.emit (.diag .warn .cksumMismatch (.sums (calcSum s.rxBuf l) (recvSum s.rxBuf l)))))

/-- Judging by the position of the byte just appended (R121 to R130); `s` holds the buffer with `b` in it. -/
def judge (b : Byte) (s : State) : Result :=
  let p := s.rxBuf.length - 1
  if p = 0 then .next (headerByte 0xFF#8 .hdr0 b s)
  else if p = 1 then .next (headerByte 0x00#8 .hdr1 b s)
  else if p = 2 then .next (headerByte 0xFF#8 .hdr2 b s)
  else if p = 3 then .next (headerByte 0xA5#8 .hdr3 b s)
  else if p ≤ Config.lenPos then .next (incomplete s)
  else
    let l := (Memory.read s.rxBuf Config.lenPos).toNat
    if s.rxBuf.length < l + Config.frameOverhead then .next (incomplete s) else judgeWhole l s

/-- FEED(b): append before judging (R120, R121). -/
def feedByte (b : Byte) (s : State) : Result := judge b (s.withRx (Memory.append s.rxBuf b))

/-- FEED (R120). -/
def execFeed (b : Byte) (s : State) : Result := feedByte b s

end Sys2Proof.Machine
end

