-- ==== Sys2Proof/Machine/Scheduler.lean ====
section
/-! DEFINITION. The Transmit Scheduler: RXBYTE, SCHED, ENQ, TICK (41_transmit_scheduler R150 to R161), and the arrival of
a whole frame, FRAME (30_encoding R80). -/

namespace Sys2Proof.Machine

/-- RXBYTE(b, t): stamp the timer, BUSY, FEED (R151, R152). -/
def receiveByte (b : Byte) (t : Nat) (s : State) : Result := feedByte b (s.stampBusy t)

/-- RXBYTE after RXBYTE, in arrival order, each resolved before the next (R57, R71). -/
def receiveAll : List (Byte × Nat) → State → Result
  | [], s => .next s
  | (b, t) :: rest, s => andThen (receiveByte b t s) (receiveAll rest)

/-- First step of SCHED: Busy to Quiet (R153). -/
def openGate (t : Nat) (s : State) : State :=
  s.withSched (flagAfterGate s.cfg.clkW t s.lastActivity s.schedState)

/-- Second step of SCHED: in QUIET, release the front frame of a non-empty queue (R154). -/
def releaseOne (t : Nat) (s : State) : State :=
  match s.schedState, s.txq with
  | .quiet, f :: rest => (transmit f (s.withTxq rest)).stampBusy t
  | _, _ => s

/-- SCHED(t) (R153, R154, R155). -/
def schedule (t : Nat) (s : State) : State := releaseOne t (openGate t s)

/-- RXBYTE (R152). -/
def execRxByte (b : Byte) (t : Nat) (s : State) : Result := receiveByte b t s

/-- SCHED (R153, R154). -/
def execSched (t : Nat) (s : State) : Result := .next (schedule t s)

/-- ENQ (R156). -/
def execEnq (f : Frame) (s : State) : Result := .next (enqueue f s)

/-- TICK (R157). -/
def execTick (drained : List (Byte × Nat)) (t : Nat) (s : State) : Result :=
  andThen (receiveAll drained s) fun u => .next (schedule t u)

/-- FRAME (R80, R95): the frame's bytes arrive in link order, each with the sample `t` (log 6). -/
def execFrame (r0 r1 r2 r3 : Byte) (payload : List Byte) (ck : Word16) (t : Nat) (s : State) : Result :=
  receiveAll ((linkBytes r0 r1 r2 r3 payload ck).map fun b => (b, t)) s

end Sys2Proof.Machine
end

