-- ==== Sys2Proof/Machine/Dispatch.lean ====
section
/-! DEFINITION. One arm per instruction, each one direct call of its meaning. -/

namespace Sys2Proof.Machine

def exec (i : Instr) (s : State) : Host.Outcome State Fault Refusal :=
  match i with
  | .frame r0 r1 r2 r3 payload ck t => Sys2Proof.Machine.execFrame r0 r1 r2 r3 payload ck t s
  | .cmdReqStatus => Sys2Proof.Machine.execCmdReqStatus s
  | .cmdForceLocal => Sys2Proof.Machine.execCmdForceLocal s
  | .cmdForceRemote => Sys2Proof.Machine.execCmdForceRemote s
  | .cmdRun => Sys2Proof.Machine.execCmdRun s
  | .cmdStop => Sys2Proof.Machine.execCmdStop s
  | .cmdSelLocal n => Sys2Proof.Machine.execCmdSelLocal n s
  | .cmdSelExt n => Sys2Proof.Machine.execCmdSelExt n s
  | .cmdSave n v => Sys2Proof.Machine.execCmdSave n v s
  | .cmdSpeed r => Sys2Proof.Machine.execCmdSpeed r s
  | .cmdFlow f => Sys2Proof.Machine.execCmdFlow f s
  | .rxExtProg60 f => Sys2Proof.Machine.execRxExtProg60 f s
  | .rxExtProg61 f => Sys2Proof.Machine.execRxExtProg61 f s
  | .rxExtProg62 f => Sys2Proof.Machine.execRxExtProg62 f s
  | .rxLocalCtrl60 _ => Sys2Proof.Machine.execRxLocalCtrl60 s
  | .rxLocalCtrl61 _ => Sys2Proof.Machine.execRxLocalCtrl61 s
  | .rxLocalCtrl62 _ => Sys2Proof.Machine.execRxLocalCtrl62 s
  | .rxRemoteCtrl60 _ => Sys2Proof.Machine.execRxRemoteCtrl60 s
  | .rxRemoteCtrl61 _ => Sys2Proof.Machine.execRxRemoteCtrl61 s
  | .rxRemoteCtrl62 _ => Sys2Proof.Machine.execRxRemoteCtrl62 s
  | .rxLocalProg60 f => Sys2Proof.Machine.execRxLocalProg60 f s
  | .rxLocalProg61 f => Sys2Proof.Machine.execRxLocalProg61 f s
  | .rxLocalProg62 f => Sys2Proof.Machine.execRxLocalProg62 f s
  | .rxStatus60 f => Sys2Proof.Machine.execRxStatus60 f s
  | .rxStatus61 f => Sys2Proof.Machine.execRxStatus61 f s
  | .rxStatus62 f => Sys2Proof.Machine.execRxStatus62 f s
  | .reset => Sys2Proof.Machine.execReset s
  | .feed b => Sys2Proof.Machine.execFeed b s
  | .rxByte b t => Sys2Proof.Machine.execRxByte b t s
  | .sched t => Sys2Proof.Machine.execSched t s
  | .enq f => Sys2Proof.Machine.execEnq f s
  | .encodePayload p => Sys2Proof.Machine.execEncodePayload p s
  | .interpret f => Sys2Proof.Machine.execInterpret f s
  | .tick drained t => Sys2Proof.Machine.execTick drained t s

end Sys2Proof.Machine
end

