-- ==== Sys2Proof/Machine/Step.lean ====
section
/-! DEFINITION. One step: the next transaction at the inputs is taken and executed. -/

namespace Sys2Proof.Machine

/-- One step (R6, R13): with nothing waiting the block does nothing (R11; log 3); an ignored transaction is taken and
has no effect (R94, R219); an operation is executed; of bytes that are no row of the table the first arrives (R151). -/
def step (s : State) : Host.Outcome State Fault Refusal :=
  match fetch s with
  | .idle => .next s
  | .ignored t => .next t
  | .instr i t => exec i t

/-- The state with a word of the opcode table as the next transaction at the inputs. -/
def State.withFetchWord (s : State) (nbits w : Nat) : State := placeWord nbits w s

end Sys2Proof.Machine
end

