-- ==== Sys2Proof/Safety.lean ====
section
/-! DEFINITION. The terms the claims use: the register tuple, the invariant, runs of operations, the validator's
state-machine view (40_frame_validator R135), what a trace of output events shows, and which operations enqueue, carry
clock samples or are commands. -/

namespace Sys2Proof.Machine

/-- The complete state of the block as the spec lists it (R20). -/
def State.registers (s : State) :
    List Byte × List Frame × Nat × SchedState × Option Bool × Option Word16 × Option Word16 :=
  (s.rxBuf, s.txq, s.lastActivity, s.schedState, s.obsRunning, s.obsPower, s.obsSpeed)

/-- The invariant between operations: RX holds a candidate that is still plausible and incomplete (R22, R133), the
timer fits CLK_W bits (R24), the queue fits its depth (R23). -/
def State.inv (s : State) : Bool :=
  Memory.wf s.rxBuf && decide (s.lastActivity < 2 ^ s.cfg.clkW) &&
    (match s.cfg.txqDepth with
      | none => true
      | some d => decide (s.txq.length ≤ d))

/-- A sequence of operations, each run on what the one before left, to the first stop (R6, R70). -/
def runOps : List Instr → State → Result
  | [], s => .next s
  | i :: rest, s => andThen (exec i s) (runOps rest)

/-- The validator's transition table on the buffer (R135): what FEED(b) leaves in a buffer `m`. -/
def nextBuffer (m : List Byte) (b : Byte) : List Byte :=
  if m.length = 0 then (if b = 0xFF#8 then m ++ [b] else [])
  else if m.length = 1 then (if b = 0x00#8 then m ++ [b] else [])
  else if m.length = 2 then (if b = 0xFF#8 then m ++ [b] else [])
  else if m.length = 3 then (if b = 0xA5#8 then m ++ [b] else [])
  else if m.length ≤ 8 then m ++ [b]
  else if m.length + 1 < (byteAt m 8).toNat + 11 then m ++ [b]
  else []

/-- The frame FEED(b) accepts on a buffer `m`, if it accepts one (R128, R130, R132). -/
def acceptedBy (m : List Byte) (b : Byte) : Option Frame :=
  let l := (byteAt m 8).toNat
  let whole := m ++ [b]
  if 9 ≤ m.length ∧ l + 11 ≤ whole.length ∧
      checksum (slice 3 (l + 9) whole) = be16 (byteAt whole (l + 9)) (byteAt whole (l + 10)) then
    some (slice 3 (l + 11) whole)
  else none

/-- The frame is a status report (R90, R91, R216). -/
def isStatus (f : Frame) : Bool :=
  (byteAt f 3 == 0x60#8 || byteAt f 3 == 0x61#8 || byteAt f 3 == 0x62#8) && byteAt f 4 == 0x07#8

/-- A status report too short for the bytes it must hold (R221). -/
def shortStatus (f : Frame) : Bool := isStatus f && decide (f.length < 13)

/-- FEED(b) on the buffer `m` accepts a short status report, the one case without a next state (R221, R260). -/
def feedStops (m : List Byte) (b : Byte) : Bool := (acceptedBy m b).toList.any shortStatus

/-- The buffer after bytes have been fed in order. -/
def bufferAfter (m : List Byte) (bytes : List Byte) : List Byte := bytes.foldl nextBuffer m

/-- The frames accepted while bytes are fed in order to a buffer `m`. -/
def acceptedFrames : List Byte → List Byte → List Frame
  | _, [] => []
  | m, b :: rest => (acceptedBy m b).toList ++ acceptedFrames (nextBuffer m b) rest

/-- Some byte of the sequence completes a short status report. -/
def receiveStops (m bytes : List Byte) : Bool := (acceptedFrames m bytes).any shortStatus

/-- The status reports an operation takes, the Receive Buffer holding `m`: those it interprets, and those among the
frames its bytes complete (R27, R130, R216). -/
def statusReports (m : List Byte) : Instr → List Frame
  | .frame r0 r1 r2 r3 payload ck _ => (acceptedFrames m (linkBytes r0 r1 r2 r3 payload ck)).filter isStatus
  | .rxStatus60 f => [f]
  | .rxStatus61 f => [f]
  | .rxStatus62 f => [f]
  | .feed b => (acceptedFrames m [b]).filter isStatus
  | .rxByte b _ => (acceptedFrames m [b]).filter isStatus
  | .interpret f => [f].filter isStatus
  | .tick drained _ => (acceptedFrames m (drained.map (·.1))).filter isStatus
  | _ => []

/-- The frames written to the link, in order (R164). -/
def writes : List Event → List Frame
  | [] => []
  | .txWrite f :: rest => f :: writes rest
  | _ :: rest => writes rest

/-- Every TX_WRITE comes directly after a TX_FLUSH, and every TX_FLUSH directly before a TX_WRITE (R72, R161). -/
def flushPaired : List Event → Bool
  | [] => true
  | .txFlush :: .txWrite _ :: rest => flushPaired rest
  | .txFlush :: _ => false
  | .txWrite _ :: _ => false
  | _ :: rest => flushPaired rest

/-- How many MALFORMED_OUTBOUND warnings a trace holds (R243). -/
def malformedCount (l : List Event) : Nat :=
  l.countP fun e => match e with
    | .diag _ .malformedOutbound _ => true
    | _ => false

/-- The frame a command builds (R183), none for an operation that is no command. -/
def commandFrame : Instr → Option Frame
  | .cmdReqStatus => some (encodeFrame payloadReqStatus)
  | .cmdForceLocal => some (encodeFrame payloadForceLocal)
  | .cmdForceRemote => some (encodeFrame payloadForceRemote)
  | .cmdRun => some (encodeFrame payloadRun)
  | .cmdStop => some (encodeFrame payloadStop)
  | .cmdSelLocal n => some (encodeFrame (payloadSelLocal n))
  | .cmdSelExt n => some (encodeFrame (payloadSelExt n))
  | .cmdSave n v => some (encodeFrame (payloadSave n v))
  | .cmdSpeed r => some (encodeFrame (payloadSpeed r))
  | .cmdFlow f => some (encodeFrame (payloadFlow f))
  | _ => none

/-- The frames an operation hands to the Transmit Queue (R156, R183). -/
def enqueuedBy : Instr → List Frame
  | .enq f => [f]
  | i => (commandFrame i).toList

/-- The clock samples an operation carries, in order (R14, R157). -/
def opTimes : Instr → List Nat
  | .frame _ _ _ _ _ _ t => [t]
  | .rxByte _ t => [t]
  | .sched t => [t]
  | .tick drained t => drained.map (·.2) ++ [t]
  | _ => []

/-- Operations that receive no byte and are no RESET and no INTERPRET: the ten commands, SCHED, ENQ, ENCODE. -/
def transmitSide : Instr → Bool
  | .sched _ => true
  | .enq _ => true
  | .encodePayload _ => true
  | i => (commandFrame i).isSome

/-- Two outcomes show the same behaviour from starts whose traces were `o1` and `o2`: the same registers and the same
new events, or the same stop. -/
def sameBehaviour (o1 o2 : List Event) : Result → Result → Prop
  | .next t1, .next t2 => t1.registers = t2.registers ∧ ∃ evs, t1.out = o1 ++ evs ∧ t2.out = o2 ++ evs
  | .fault f1, .fault f2 => f1 = f2
  | .refused r1, .refused r2 => r1 = r2
  | _, _ => False

end Sys2Proof.Machine
end

