-- ==== Sys2Proof/Certificates/Slice0/Obligations.lean ====
section
/-! DEFINITION. The statements for the provers, from the spec's numbered rules. `exec i s = .next t` is "the operation
completes in state t". -/

open Sys2Proof Sys2Proof.Machine Host.Outcome

/-! ### Reset -/

/-- The registers right after reset (10_state section 7; the spec's own decision D6), and nothing waiting or emitted
(the model's own ports, log 3, log 4). -/
def Obligations.ResetStateRegisters : Prop :=
  State.reset.rxBuf = [] ∧ State.reset.rxLen = 0 ∧ State.reset.txq = [] ∧ State.reset.lastActivity = 0 ∧
  State.reset.schedState = .busy ∧ State.reset.obsRunning = none ∧ State.reset.obsPower = none ∧
  State.reset.obsSpeed = none ∧ State.reset.inputs = [] ∧ State.reset.out = []

/-- RESET from every state: all registers at their reset values, no event, parameters and ports as before
(70_reset_and_hazards section 1; D24). -/
def Obligations.ResetOperationClearsEveryRegister : Prop :=
  ∀ s : State, exec .reset s = .next
    { s with rxBuf := [], txq := [], lastActivity := 0, schedState := .busy, obsRunning := none, obsPower := none,
             obsSpeed := none }

/-- R282: after RESET the behaviour does not depend on what happened before: from two states with the same parameters,
RESET and then any operations give the same registers and the same new events, or the same stop. -/
def Obligations.AfterResetThePastIsForgotten : Prop :=
  ∀ (s1 s2 : State) (ops : List Instr), s1.cfg = s2.cfg →
    sameBehaviour s1.out s2.out (runOps (.reset :: ops) s1) (runOps (.reset :: ops) s2)

/-! ### Frame Validator -/

/-- R122 to R125: the four header positions. -/
def Obligations.FeedChecksHeaderByPosition : Prop :=
  ∀ (s : State) (b : Byte),
    (s.rxBuf.length = 0 → exec (.feed b) s =
      if b = 0xFF#8 then .next { s with rxBuf := s.rxBuf ++ [b], out := s.out ++ [.result .incomplete] }
      else .next { s with rxBuf := [], out := s.out ++ [.result (.rejected .hdr0)] }) ∧
    (s.rxBuf.length = 1 → exec (.feed b) s =
      if b = 0x00#8 then .next { s with rxBuf := s.rxBuf ++ [b], out := s.out ++ [.result .incomplete] }
      else .next { s with rxBuf := [], out := s.out ++ [.result (.rejected .hdr1)] }) ∧
    (s.rxBuf.length = 2 → exec (.feed b) s =
      if b = 0xFF#8 then .next { s with rxBuf := s.rxBuf ++ [b], out := s.out ++ [.result .incomplete] }
      else .next { s with rxBuf := [], out := s.out ++ [.result (.rejected .hdr2)] }) ∧
    (s.rxBuf.length = 3 → exec (.feed b) s =
      if b = 0xA5#8 then .next { s with rxBuf := s.rxBuf ++ [b], out := s.out ++ [.result .incomplete] }
      else .next { s with rxBuf := [], out := s.out ++ [.result (.rejected .hdr3)] })

/-- R126: positions 4 to 8 accept every byte. -/
def Obligations.FeedAcceptsReservedPositions : Prop :=
  ∀ (s : State) (b : Byte), 4 ≤ s.rxBuf.length → s.rxBuf.length ≤ 8 →
    exec (.feed b) s = .next { s with rxBuf := s.rxBuf ++ [b], out := s.out ++ [.result .incomplete] }

/-- R127: from position 9 on, while the total `L + 11` is not reached, every byte is taken; `L` is the byte at
position 8. -/
def Obligations.FeedKeepsAcceptingUntilTheTotal : Prop :=
  ∀ (s : State) (b len : Byte), 9 ≤ s.rxBuf.length → s.rxBuf[8]? = some len → s.rxBuf.length + 1 < len.toNat + 11 →
    exec (.feed b) s = .next { s with rxBuf := s.rxBuf ++ [b], out := s.out ++ [.result .incomplete] }

/-- R128, R129: at the required total, the sum of the `L + 6` bytes from index 3 modulo 65536 against the big-endian
trailer; a mismatch warns with both values (computed first: the spec's decision D28) and rejects. `high` is the trailer
byte before `b`. -/
def Obligations.FeedRejectsAWrongChecksum : Prop :=
  ∀ (s : State) (b len high : Byte), s.rxBuf[8]? = some len → s.rxBuf.length = len.toNat + 10 →
    s.rxBuf[len.toNat + 9]? = some high →
    (((s.rxBuf.drop 3).take (len.toNat + 6)).map BitVec.toNat).sum % 65536 ≠ high.toNat * 256 + b.toNat →
    exec (.feed b) s = .next
      { s with
        rxBuf := []
        out := s.out ++
          [.diag .warn .cksumMismatch
            (.sums (BitVec.ofNat 16 (((s.rxBuf.drop 3).take (len.toNat + 6)).map BitVec.toNat).sum)
              (BitVec.ofNat 16 (high.toNat * 256 + b.toNat))),
           .result (.rejected .cksum)] }

/-- R130: at the required total with the right sum, INTERPRET runs on the buffer less its three preamble bytes, then
FRAME_RX is emitted (with the stripped frame: the spec's decision D12), the buffer cleared, and the frame reported. -/
def Obligations.FeedAcceptsARightChecksum : Prop :=
  ∀ (s t : State) (b len high : Byte), s.rxBuf[8]? = some len → s.rxBuf.length = len.toNat + 10 →
    s.rxBuf[len.toNat + 9]? = some high →
    (((s.rxBuf.drop 3).take (len.toNat + 6)).map BitVec.toNat).sum % 65536 = high.toNat * 256 + b.toNat →
    exec (.interpret ((s.rxBuf ++ [b]).drop 3)) { s with rxBuf := s.rxBuf ++ [b] } = .next t →
    exec (.feed b) s = .next
      { t with
        rxBuf := []
        out := t.out ++ [.diag .info .frameRx (.bytes ((s.rxBuf ++ [b]).drop 3)),
          .result (.accepted ((s.rxBuf ++ [b]).drop 3))] }

/-- R133: one result ends every FEED; after Incomplete the buffer is the previous one with `b` appended, after any
other result it is empty. -/
def Obligations.FeedClearsAfterEitherOutcome : Prop :=
  ∀ (s t : State) (b : Byte), exec (.feed b) s = .next t →
    ∃ (evs : List Event) (r : FeedResult), t.out = s.out ++ evs ++ [.result r] ∧
      (∀ r', Event.result r' ∉ evs) ∧
      (r = .incomplete → t.rxBuf = s.rxBuf ++ [b]) ∧ (r ≠ .incomplete → t.rxBuf = [])

/-- FEED completes on every state and byte but the one that completes a short status report (40_frame_validator
section 1; 43_packet_interpreter section 3, decision D15), leaves the buffer the state-machine view gives (section 6),
and touches nothing but the buffer, the observables and the outputs; on the short status report it faults. -/
def Obligations.FeedCompletesUnlessShortStatus : Prop :=
  ∀ (s : State) (b : Byte),
    if feedStops s.rxBuf b then exec (.feed b) s = .fault .interpShortFrame
    else ∃ t, exec (.feed b) s = .next t ∧ t.rxBuf = nextBuffer s.rxBuf b ∧
      t = { s with rxBuf := t.rxBuf, obsRunning := t.obsRunning, obsPower := t.obsPower, obsSpeed := t.obsSpeed,
                   out := t.out } ∧
      (acceptedBy s.rxBuf b = none → t.obsRunning = s.obsRunning ∧ t.obsPower = s.obsPower ∧ t.obsSpeed = s.obsSpeed)

/-- The comparison at completion is decided by a running 16-bit sum of the bytes from index 3 (40_frame_validator
section 6, the incremental checksum, an inference the spec marks as derived). -/
def Obligations.CompletionDecidedByRunningSum : Prop :=
  ∀ (s t : State) (b len high : Byte), s.rxBuf[8]? = some len → s.rxBuf.length = len.toNat + 10 →
    s.rxBuf[len.toNat + 9]? = some high → exec (.feed b) s = .next t →
    (t.out.getLast? = some (.result (.rejected .cksum)) ↔
      ((s.rxBuf.drop 3).take (len.toNat + 6)).foldl (fun acc x => acc + x.setWidth 16) (0 : Word16) ≠
        high.setWidth 16 * 256 + b.setWidth 16)

/-- Extra `FF` bytes before a frame are consumed in pairs: an even number leaves the validator at position 0, an odd
number leaves one `FF` in the buffer, and the header that follows it is rejected byte by byte, so that frame is lost
(40_frame_validator section 6, derived). -/
def Obligations.StrayPreambleBytesGoInPairs : Prop :=
  ∀ (k : Nat) (s : State), s.rxBuf = [] →
    ∃ u v w, runOps (List.replicate (2 * k) (.feed 0xFF)) s = .next u ∧ u.rxBuf = [] ∧
      u.out = s.out ++ (List.replicate k [Event.result .incomplete, .result (.rejected .hdr1)]).flatten ∧
      runOps (List.replicate (2 * k + 1) (.feed 0xFF)) s = .next v ∧ v.rxBuf = [0xFF] ∧
      v.out = u.out ++ [.result .incomplete] ∧
      runOps [.feed 0xFF, .feed 0x00, .feed 0xFF, .feed 0xA5] v = .next w ∧ w.rxBuf = [] ∧
      w.out = v.out ++ [.result (.rejected .hdr1), .result (.rejected .hdr0), .result .incomplete,
        .result (.rejected .hdr1)]

/-- R134: no time-out. Whatever commands, scheduling ticks without bytes, enqueues and encodings happen, they complete
and the candidate stays in the buffer. -/
def Obligations.PartialCandidateStaysForAnyLengthOfTime : Prop :=
  ∀ (ops : List Instr) (s : State), (∀ i ∈ ops, transmitSide i = true) →
    ∃ t, runOps ops s = .next t ∧ t.rxBuf = s.rxBuf

/-! ### Whole frames -/

/-- FRAME is the arrival of its bytes, header, reserved bytes, length, length-payload and trailer, one RXBYTE each with
the one sample (30_encoding section 1; the operands are the model's choice, log 6). -/
def Obligations.FrameArrivesByteByByte : Prop :=
  ∀ (r0 r1 r2 r3 : Byte) (payload : List Byte) (ck : Word16) (t : Nat) (s : State),
    exec (.frame r0 r1 r2 r3 payload ck t) s =
      runOps (([0xFF, 0x00, 0xFF, 0xA5, r0, r1, r2, r3, BitVec.ofNat 8 payload.length] ++ payload ++
        [BitVec.ofNat 8 (ck.toNat / 256), BitVec.ofNat 8 (ck.toNat % 256)]).map fun b => .rxByte b t) s

/-- R132: a valid frame fed to an idle validator is accepted on its last byte, every byte before it giving Incomplete,
and the interpreter receives exactly the frame minus the preamble: it begins with `A5`, has length `L + 8` and ends in
the two checksum bytes. `pre` is the state INTERPRET starts in. -/
def Obligations.ValidFrameIsAcceptedOnItsLastByte : Prop :=
  ∀ (r0 r1 r2 r3 : Byte) (payload : List Byte) (t : Nat) (s : State), s.rxBuf = [] → payload.length ≤ 255 →
    let scope : List Byte := [0xA5, r0, r1, r2, r3, BitVec.ofNat 8 payload.length] ++ payload
    let ck : Word16 := BitVec.ofNat 16 (scope.map BitVec.toNat).sum
    let f : Frame := scope ++ [BitVec.ofNat 8 (ck.toNat / 256), BitVec.ofNat 8 (ck.toNat % 256)]
    let pre : State :=
      { s with rxBuf := [0xFF, 0x00, 0xFF] ++ f, lastActivity := t % 2 ^ s.cfg.clkW, schedState := .busy,
               out := s.out ++ List.replicate (payload.length + 10) (.result .incomplete) }
    f.length = payload.length + 8 ∧
    (shortStatus f = false →
      ∃ u, exec (.interpret f) pre = .next u ∧
        exec (.frame r0 r1 r2 r3 payload ck t) s = .next
          { u with rxBuf := [], out := u.out ++ [.diag .info .frameRx (.bytes f), .result (.accepted f)] })

/-- R129 (its testable property) and R133: a whole frame with any other trailer than its sum is rejected on its last
byte, with the warning, and the buffer is empty afterwards. -/
def Obligations.FrameWithAWrongTrailerIsRejected : Prop :=
  ∀ (r0 r1 r2 r3 : Byte) (payload : List Byte) (ck : Word16) (t : Nat) (s : State),
    s.rxBuf = [] → payload.length ≤ 255 →
    let sum : Word16 := BitVec.ofNat 16 ((([0xA5, r0, r1, r2, r3, BitVec.ofNat 8 payload.length] ++ payload).map
      BitVec.toNat).sum)
    ck ≠ sum →
    exec (.frame r0 r1 r2 r3 payload ck t) s = .next
      { s with
        rxBuf := []
        lastActivity := t % 2 ^ s.cfg.clkW
        schedState := .busy
        out := s.out ++ List.replicate (payload.length + 10) (.result .incomplete) ++
          [.diag .warn .cksumMismatch (.sums sum ck), .result (.rejected .cksum)] }

/-- The checksum detects every error in one byte of the reserved bytes, the length-payload or the trailer
(70_reset_and_hazards section 2, derived): a valid frame in which that one byte was changed, arriving at an idle
receiver, is rejected on its last byte with both sums in the warning: no publish, no
interpretation, no observable changed. (A changed byte at positions 0 to 3 is rejected by value: obligation
FeedChecksHeaderByPosition; the rule says of a changed length byte, position 8, that its detection is not guaranteed.)
`good` is the frame as sent, `bad` as received. -/
def Obligations.SingleByteErrorIsDetected : Prop :=
  ∀ (r0 r1 r2 r3 : Byte) (payload : List Byte) (i : Nat) (x y : Byte) (t : Nat) (s : State),
    let scope : List Byte := [0xA5, r0, r1, r2, r3, BitVec.ofNat 8 payload.length] ++ payload
    let sum := (scope.map BitVec.toNat).sum % 65536
    let good : List Byte := [0xFF, 0x00, 0xFF] ++ scope ++ [BitVec.ofNat 8 (sum / 256), BitVec.ofNat 8 (sum % 256)]
    let bad := good.set i y
    s.rxBuf = [] → payload.length ≤ 255 → 4 ≤ i → i ≠ 8 → good[i]? = some x → y ≠ x →
    ∃ high low : Byte, bad.drop (payload.length + 9) = [high, low] ∧
      runOps (bad.map fun b => .rxByte b t) s = .next
        { s with
          rxBuf := []
          lastActivity := t % 2 ^ s.cfg.clkW
          schedState := .busy
          out := s.out ++ List.replicate (payload.length + 10) (.result .incomplete) ++
            [.diag .warn .cksumMismatch
              (.sums (BitVec.ofNat 16 ((((bad.drop 3).take (payload.length + 6)).map BitVec.toNat).sum))
                (BitVec.ofNat 16 (high.toNat * 256 + low.toNat))),
             .result (.rejected .cksum)] }

/-! ### Transmit Scheduler -/

/-- R151, R152: RXBYTE stamps the timer with the sample's CLK_W bits, sets BUSY, and is FEED otherwise. -/
def Obligations.RxByteStampsAndFeeds : Prop :=
  ∀ (b : Byte) (t : Nat) (s : State),
    exec (.rxByte b t) s = exec (.feed b) { s with lastActivity := t % 2 ^ s.cfg.clkW, schedState := .busy }

/-- RXBYTE completes unless its byte completes a short status report, whatever the validator says of the byte; the
timer and the flag are written, the queue is not (41_transmit_scheduler section 2; decision D15 for the fault). -/
def Obligations.RxByteCompletesUnlessShortStatus : Prop :=
  ∀ (b : Byte) (t : Nat) (s : State),
    if feedStops s.rxBuf b then exec (.rxByte b t) s = .fault .interpShortFrame
    else ∃ u, exec (.rxByte b t) s = .next u ∧ u.rxBuf = nextBuffer s.rxBuf b ∧
      u.lastActivity = t % 2 ^ s.cfg.clkW ∧ u.schedState = .busy ∧ u.txq = s.txq ∧
      u.cfg = s.cfg ∧ u.ret = s.ret ∧ u.inputs = s.inputs ∧ writes u.out = writes s.out

/-- The whole case table of SCHED (41_transmit_scheduler section 3), with `elapsed = (t - last_activity) mod 2^CLK_W`
(section 4; the modular difference is the spec's decision D3). -/
def Obligations.SchedFollowsItsCaseTable : Prop :=
  ∀ (t : Nat) (s : State),
    let elapsedTime : Int := ((t : Int) - (s.lastActivity : Int)) % ((2 : Int) ^ s.cfg.clkW)
    exec (.sched t) s =
      match s.txq with
      | [] => .next { s with schedState := if 100 < elapsedTime then .quiet else s.schedState }
      | f :: rest =>
        if s.schedState = .quiet ∨ 100 < elapsedTime then
          .next { s with txq := rest, lastActivity := t % 2 ^ s.cfg.clkW, schedState := .busy,
                         out := s.out ++ [.txFlush, .txWrite f] }
        else .next s

/-- One wrap of the clock between the last activity at true time `a` and a scheduling tick at true time `t` is
harmless: the gate opens exactly when more than 100 ms have passed (41_transmit_scheduler section 4; decision D3). -/
def Obligations.OneClockWrapIsHarmless : Prop :=
  ∀ (a t : Nat) (f : Frame) (rest : List Frame) (s : State), s.schedState = .busy → s.txq = f :: rest →
    s.lastActivity = a % 2 ^ s.cfg.clkW → a ≤ t → t < a + 2 ^ s.cfg.clkW →
    (t - a ≤ 100 → exec (.sched t) s = .next s) ∧
    (100 < t - a → ∃ u, exec (.sched t) s = .next u ∧ u.txq = rest ∧ writes u.out = writes s.out ++ [f])

/-- R156: ENQ appends the frame at the back, changes nothing else and transmits nothing, where the queue has room. -/
def Obligations.EnqAppendsAtTheBack : Prop :=
  ∀ (f : Frame) (s : State), (∀ d, s.cfg.txqDepth = some d → s.txq.length < d) →
    exec (.enq f) s = .next { s with txq := s.txq ++ [f] }

/-- A full finite queue refuses the new frame, of ENQ and of every command, with a warning, and keeps every queued one
(20_memory section 5; decision D8). -/
def Obligations.FullQueueDropsTheNewFrame : Prop :=
  ∀ (i : Instr) (f : Frame) (d : Nat) (s : State), i = .enq f ∨ commandFrame i = some f →
    s.cfg.txqDepth = some d → s.txq.length = d →
    exec i s = .next { s with out := s.out ++ [.diag .warn .txqOverflow (.bytes f)] }

/-- R157: TICK is its RXBYTEs in order, then SCHED. -/
def Obligations.TickDrainsThenSchedules : Prop :=
  ∀ (drained : List (Byte × Nat)) (t : Nat) (s : State),
    exec (.tick drained t) s = runOps (drained.map (fun x => .rxByte x.1 x.2) ++ [.sched t]) s

/-- TICK completes unless one of its bytes completes a short status report; the scheduling step sees the timer as
stamped by the last byte drained, and BUSY if any was (20_memory section 6; 41_transmit_scheduler section 3). -/
def Obligations.TickCompletesUnlessShortStatus : Prop :=
  ∀ (drained : List (Byte × Nat)) (t : Nat) (s : State),
    if receiveStops s.rxBuf (drained.map (·.1)) then exec (.tick drained t) s = .fault .interpShortFrame
    else ∃ u v, exec (.tick drained t) s = .next v ∧ exec (.sched t) u = .next v ∧
      u.rxBuf = bufferAfter s.rxBuf (drained.map (·.1)) ∧ v.rxBuf = u.rxBuf ∧ u.txq = s.txq ∧ u.cfg = s.cfg ∧
      u.lastActivity = ((drained.map fun x => x.2 % 2 ^ s.cfg.clkW).getLast?).getD s.lastActivity ∧
      u.schedState = (if drained = [] then s.schedState else .busy) ∧ writes u.out = writes s.out

/-- A tick that drains at least one byte, all with one clock sample, never transmits (41_transmit_scheduler section 3,
corner case, derived). -/
def Obligations.TickThatDrainsSendsNothing : Prop :=
  ∀ (bytes : List Byte) (t : Nat) (s u : State), bytes ≠ [] →
    exec (.tick (bytes.map fun b => (b, t)) t) s = .next u →
    u.txq = s.txq ∧ u.schedState = .busy ∧ writes u.out = writes s.out

/-- At most one frame leaves the queue per tick, the front one, verbatim, by TX_FLUSH and TX_WRITE as the tick's last
two events (41_transmit_scheduler sections 3 and 5). -/
def Obligations.AtMostOneFrameLeavesPerTick : Prop :=
  ∀ (drained : List (Byte × Nat)) (t : Nat) (s u : State), exec (.tick drained t) s = .next u →
    (u.txq = s.txq ∧ writes u.out = writes s.out) ∨
    ∃ f rest before, s.txq = f :: rest ∧ u.txq = rest ∧ writes u.out = writes s.out ++ [f] ∧
      u.out = before ++ [.txFlush, .txWrite f] ∧ u.lastActivity = t % 2 ^ s.cfg.clkW ∧ u.schedState = .busy

/-- Every operation keeps the trace well paired: no TX_WRITE without a TX_FLUSH directly before it, no TX_FLUSH without
its TX_WRITE (41_transmit_scheduler section 5; 20_memory section 6). -/
def Obligations.FlushDirectlyBeforeEveryWrite : Prop :=
  ∀ (i : Instr) (s t : State), flushPaired s.out = true → exec i s = .next t → flushPaired t.out = true

/-- Frames leave in the order they were queued: over any operations but RESET, with an unbounded queue, what was queued
and what is enqueued is what has been written and what still waits, in one order (41_transmit_scheduler section 6). -/
def Obligations.FramesLeaveInFifoOrder : Prop :=
  ∀ (ops : List Instr) (s t : State), Instr.reset ∉ ops → s.cfg.txqDepth = none → runOps ops s = .next t →
    ∃ sent, writes t.out = writes s.out ++ sent ∧ s.txq ++ ops.flatMap enqueuedBy = sent ++ t.txq

/-- Transmissions are more than 100 ms apart: after a SCHED at `t1` that wrote a frame, and any operations but RESET
with samples that never go back and no clock wrap, a SCHED at `t2` that writes comes after `t1 + 100`
(41_transmit_scheduler section 6, derived). -/
def Obligations.TransmissionsAreMoreThanTheQuietWindowApart : Prop :=
  ∀ (ops : List Instr) (t1 t2 : Nat) (s u v w : State),
    exec (.sched t1) s = .next u → writes u.out ≠ writes s.out →
    runOps ops u = .next v → Instr.reset ∉ ops →
    exec (.sched t2) v = .next w → writes w.out ≠ writes v.out →
    (t1 :: (ops.flatMap opTimes ++ [t2])).Pairwise (· ≤ ·) → t2 < 2 ^ s.cfg.clkW →
    t1 + 100 < t2

/-- The stored flag tells the truth about the timer: from BUSY with an activity stamp not after the first sample, any
operations with samples that never go back and no wrap leave QUIET only where the link has been silent for more than
100 ms at every later sample (10_state section 3, derived). -/
def Obligations.QuietFlagMeansASilentLink : Prop :=
  ∀ (ops : List Instr) (t0 t : Nat) (s v : State),
    s.schedState = .busy → s.lastActivity ≤ t0 → runOps ops s = .next v → v.schedState = .quiet →
    (t0 :: (ops.flatMap opTimes ++ [t])).Pairwise (· ≤ ·) → t < 2 ^ s.cfg.clkW →
    (100 : Int) < ((t : Int) - (v.lastActivity : Int)) % ((2 : Int) ^ v.cfg.clkW)

/-- Transmission can starve: from BUSY, whatever single operations arrive, if every SCHED finds at most 100 ms elapsed
then nothing is ever written (41_transmit_scheduler section 6, derived). -/
def Obligations.NothingIsSentOnABusyLink : Prop :=
  ∀ (ops : List Instr) (s t : State), s.schedState = .busy → (∀ d x, Instr.tick d x ∉ ops) →
    (∀ (before after : List Instr) (x : Nat) (u : State), ops = before ++ .sched x :: after →
      runOps before s = .next u → ((x : Int) - (u.lastActivity : Int)) % ((2 : Int) ^ u.cfg.clkW) ≤ 100) →
    runOps ops s = .next t → writes t.out = writes s.out ∧ t.schedState = .busy

/-! ### Command Encoder -/

/-- ENCODE returns preamble, payload and the sum modulo 65536, high byte first, `len(p) + 5` bytes, and touches nothing
else (42_command_encoder section 1). That it completes on every byte sequence is the spec's decision D31; that the
returned frame stands in the field `ret` is the model's choice, log 5. -/
def Obligations.EncodeReturnsTheBuiltFrame : Prop :=
  ∀ (p : List Byte) (s : State),
    let c := (p.map BitVec.toNat).sum % 65536
    let pkt : Frame := [0xFF, 0x00, 0xFF] ++ p ++ [BitVec.ofNat 8 (c / 256), BitVec.ofNat 8 (c % 256)]
    exec (.encodePayload p) s = .next { s with ret := some pkt } ∧ pkt.length = p.length + 5

/-- R184 to R188: the frames the five fixed commands queue, where the queue has room. -/
def Obligations.FixedCommandsQueueTheirFrames : Prop :=
  ∀ s : State, (∀ d, s.cfg.txqDepth = some d → s.txq.length < d) →
    exec .cmdReqStatus s = .next { s with txq := s.txq ++
      [[0xFF, 0x00, 0xFF, 0xA5, 0x00, 0x60, 0x10, 0x07, 0x00, 0x01, 0x1C]] } ∧
    exec .cmdForceLocal s = .next { s with txq := s.txq ++
      [[0xFF, 0x00, 0xFF, 0xA5, 0x00, 0x60, 0x10, 0x04, 0x01, 0x00, 0x01, 0x1A]] } ∧
    exec .cmdForceRemote s = .next { s with txq := s.txq ++
      [[0xFF, 0x00, 0xFF, 0xA5, 0x00, 0x60, 0x10, 0x04, 0x01, 0xFF, 0x02, 0x19]] } ∧
    exec .cmdRun s = .next { s with txq := s.txq ++
      [[0xFF, 0x00, 0xFF, 0xA5, 0x00, 0x60, 0x10, 0x06, 0x01, 0x0A, 0x01, 0x26]] } ∧
    exec .cmdStop s = .next { s with txq := s.txq ++
      [[0xFF, 0x00, 0xFF, 0xA5, 0x00, 0x60, 0x10, 0x06, 0x01, 0x04, 0x01, 0x20]] }

/-- R189, R190, R193: the frames of the commands with one byte argument, for every argument: the substituted byte
modulo 256 and the sum of the payload, where the queue has room. -/
def Obligations.ByteArgumentCommandsQueueTheirFrames : Prop :=
  ∀ (n : Byte) (s : State), (∀ d, s.cfg.txqDepth = some d → s.txq.length < d) →
    (let x := (n.toNat + 1) % 256
     exec (.cmdSelLocal n) s = .next { s with txq := s.txq ++
      [[0xFF, 0x00, 0xFF, 0xA5, 0x00, 0x60, 0x10, 0x05, 0x01, BitVec.ofNat 8 x,
        BitVec.ofNat 8 ((0x11B + x) / 256), BitVec.ofNat 8 ((0x11B + x) % 256)]] }) ∧
    (let x := (n.toNat * 8) % 256
     exec (.cmdSelExt n) s = .next { s with txq := s.txq ++
      [[0xFF, 0x00, 0xFF, 0xA5, 0x00, 0x60, 0x10, 0x01, 0x04, 0x03, 0x21, 0x00, BitVec.ofNat 8 x,
        BitVec.ofNat 8 ((0x13E + x) / 256), BitVec.ofNat 8 ((0x13E + x) % 256)]] }) ∧
    (let x := n.toNat
     exec (.cmdFlow n) s = .next { s with txq := s.txq ++
      [[0xFF, 0x00, 0xFF, 0xA5, 0x00, 0x60, 0x10, 0x09, 0x04, 0x02, 0xC4, 0x00, BitVec.ofNat 8 x,
        BitVec.ofNat 8 ((0x1E8 + x) / 256), BitVec.ofNat 8 ((0x1E8 + x) % 256)]] })

/-- R191, R192: the frames of the commands with a 16-bit argument, for every argument, where the queue has room. -/
def Obligations.WordArgumentCommandsQueueTheirFrames : Prop :=
  ∀ (n : Byte) (v : Word16) (s : State), (∀ d, s.cfg.txqDepth = some d → s.txq.length < d) →
    (let x := (0x26 + n.toNat) % 256
     let c := 0x11D + x + v.toNat / 256 + v.toNat % 256
     exec (.cmdSave n v) s = .next { s with txq := s.txq ++
      [[0xFF, 0x00, 0xFF, 0xA5, 0x00, 0x60, 0x10, 0x01, 0x04, 0x03, BitVec.ofNat 8 x,
        BitVec.ofNat 8 (v.toNat / 256), BitVec.ofNat 8 (v.toNat % 256),
        BitVec.ofNat 8 (c / 256), BitVec.ofNat 8 (c % 256)]] }) ∧
    (let c := 0x1E9 + v.toNat / 256 + v.toNat % 256
     exec (.cmdSpeed v) s = .next { s with txq := s.txq ++
      [[0xFF, 0x00, 0xFF, 0xA5, 0x00, 0x60, 0x10, 0x0A, 0x04, 0x02, 0xC4,
        BitVec.ofNat 8 (v.toNat / 256), BitVec.ofNat 8 (v.toNat % 256),
        BitVec.ofNat 8 (c / 256), BitVec.ofNat 8 (c % 256)]] })

/-- A command completes in every state: where the queue has room its frame goes to the back of the queue and nothing
else changes; on a full finite queue the warning is emitted and nothing else changes (42_command_encoder section 2;
20_memory section 5, decision D8). That a queue already longer than its depth, which no run reaches, counts as full is
the model's choice, log 14. -/
def Obligations.CommandsTouchOnlyTheQueue : Prop :=
  ∀ (i : Instr) (f : Frame) (s : State), commandFrame i = some f →
    ((∀ d, s.cfg.txqDepth = some d → s.txq.length < d) → exec i s = .next { s with txq := s.txq ++ [f] }) ∧
    (∀ d, s.cfg.txqDepth = some d → d ≤ s.txq.length →
      exec i s = .next { s with out := s.out ++ [.diag .warn .txqOverflow (.bytes f)] })

/-- The encoder's self-check never discards a packet, over all operations (42_command_encoder section 1, derived). -/
def Obligations.SelfCheckNeverDiscards : Prop :=
  ∀ (i : Instr) (s t : State), exec i s = .next t → malformedCount t.out = malformedCount s.out

/-- Feeding the frame ENCODE returns for a well-shaped payload to an idle validator gives Incomplete for all its bytes
but the last and then accepts the payload with its trailer (42_command_encoder section 4, derived). -/
def Obligations.EncodedFramePassesTheValidator : Prop :=
  ∀ (p : List Byte) (len : Byte) (s s' u : State) (pkt : Frame), s.rxBuf = [] →
    p[0]? = some 0xA5#8 → p[5]? = some len → p.length = len.toNat + 6 →
    exec (.encodePayload p) s' = .next u → u.ret = some pkt → shortStatus (pkt.drop 3) = false →
    ∃ v w evs, runOps (pkt.dropLast.map .feed) s = .next v ∧
      v.out = s.out ++ List.replicate (p.length + 4) (.result .incomplete) ∧
      runOps (pkt.map .feed) s = .next w ∧ w.rxBuf = [] ∧
      w.out = v.out ++ evs ++ [.diag .info .frameRx (.bytes (pkt.drop 3)), .result (.accepted (pkt.drop 3))] ∧
      (∀ r, Event.result r ∉ evs)

/-- The block's own command frame, delivered back to an idle receiver, is accepted and ignored: no class diagnostic and
no publish, all registers but the timer and the flag as before (70_reset_and_hazards section 2, echo; derived). -/
def Obligations.OwnEchoIsAcceptedAndIgnored : Prop :=
  ∀ (i : Instr) (f : Frame) (t : Nat) (s : State), commandFrame i = some f → s.rxBuf = [] →
    runOps (f.map fun b => .rxByte b t) s = .next
      { s with
        lastActivity := t % 2 ^ s.cfg.clkW
        schedState := .busy
        out := s.out ++ List.replicate (f.length - 1) (.result .incomplete) ++
          [.diag .info .frameRx (.bytes (f.drop 3)), .result (.accepted (f.drop 3))] }

/-! ### Packet Interpreter -/

/-- R211 and R219: a frame that is not relevant, or matches no class, changes nothing and emits nothing
(43_packet_interpreter section 3; the frame has the 8 bytes every accepted frame has). -/
def Obligations.UnmatchedFramesAreIgnored : Prop :=
  ∀ (f : Frame) (f3 f4 f6 : Byte) (s : State), f[3]? = some f3 → f[4]? = some f4 → f[6]? = some f6 →
    ((f3 ≠ 0x60#8 ∧ f3 ≠ 0x61#8 ∧ f3 ≠ 0x62#8 ∧ f4 ≠ 0x64#8) ∨
      (f4 ≠ 0x01#8 ∧ f4 ≠ 0x04#8 ∧ f4 ≠ 0x05#8 ∧ f4 ≠ 0x07#8) ∨
      (f4 = 0x04#8 ∧ f6 ≠ 0x00#8 ∧ f6 ≠ 0xFF#8)) →
    exec (.interpret f) s = .next s

/-- R212 to R215: what INTERPRET reports of a relevant frame of the four report-only classes; no state changes. -/
def Obligations.InterpretReportsTheClass : Prop :=
  ∀ (f : Frame) (f3 f4 f6 f7 : Byte) (s : State), f[3]? = some f3 → f[4]? = some f4 → f[6]? = some f6 →
    f[7]? = some f7 → (f3 = 0x60#8 ∨ f3 = 0x61#8 ∨ f3 = 0x62#8) →
    (f4 = 0x01#8 → exec (.interpret f) s = .next { s with out := s.out ++ [.diag .info .extProg (.byte f6)] }) ∧
    (f4 = 0x04#8 → f6 = 0x00#8 → exec (.interpret f) s = .next { s with out := s.out ++ [.diag .info .localCtrl .none] }) ∧
    (f4 = 0x04#8 → f6 = 0xFF#8 → exec (.interpret f) s = .next { s with out := s.out ++ [.diag .info .remoteCtrl .none] }) ∧
    (f4 = 0x05#8 → exec (.interpret f) s = .next { s with out := s.out ++ [.diag .info .localProg (.byte f7)] })

/-- R212 to R215: the twelve rows of the report-only classes, each on a frame that has the byte it extracts. -/
def Obligations.ClassRowsReport : Prop :=
  ∀ (f : Frame) (f6 f7 : Byte) (s : State), f[6]? = some f6 → f[7]? = some f7 →
    (∀ i ∈ [Instr.rxExtProg60 f, .rxExtProg61 f, .rxExtProg62 f],
      exec i s = .next { s with out := s.out ++ [.diag .info .extProg (.byte f6)] }) ∧
    (∀ i ∈ [Instr.rxLocalCtrl60 f, .rxLocalCtrl61 f, .rxLocalCtrl62 f],
      exec i s = .next { s with out := s.out ++ [.diag .info .localCtrl .none] }) ∧
    (∀ i ∈ [Instr.rxRemoteCtrl60 f, .rxRemoteCtrl61 f, .rxRemoteCtrl62 f],
      exec i s = .next { s with out := s.out ++ [.diag .info .remoteCtrl .none] }) ∧
    (∀ i ∈ [Instr.rxLocalProg60 f, .rxLocalProg61 f, .rxLocalProg62 f],
      exec i s = .next { s with out := s.out ++ [.diag .info .localProg (.byte f7)] })

/-- R216, R217: a status report of at least 13 bytes stores and publishes run, power and speed, in that order, each
only where monitored; an unknown run byte is logged and not published (order and unknown byte: the spec's decisions
D16, D17). The same for the three rows and for INTERPRET of a relevant frame with `frame[4] = 07`. -/
def Obligations.StatusReportPublishes : Prop :=
  ∀ (f : Frame) (i : Instr) (r p1 p0 v1 v0 : Byte) (s : State),
    i ∈ [Instr.rxStatus60 f, .rxStatus61 f, .rxStatus62 f] ∨
      (i = .interpret f ∧ f[4]? = some 0x07#8 ∧ (f[3]? = some 0x60#8 ∨ f[3]? = some 0x61#8 ∨ f[3]? = some 0x62#8)) →
    f[6]? = some r → f[9]? = some p1 → f[10]? = some p0 → f[11]? = some v1 → f[12]? = some v0 →
    let power : Word16 := BitVec.ofNat 16 (p1.toNat * 256 + p0.toNat)
    let speed : Word16 := BitVec.ofNat 16 (v1.toNat * 256 + v0.toNat)
    exec i s = .next
      { s with
        obsRunning := if s.cfg.monRun ∧ r.toNat ≤ 1 then some (decide (r = 1#8)) else s.obsRunning
        obsPower := if s.cfg.monPower then some power else s.obsPower
        obsSpeed := if s.cfg.monSpeed then some speed else s.obsSpeed
        out := s.out ++ (if 1 < r.toNat then [.diag .info .runUnknown (.byte r)] else []) ++
          (if s.cfg.monRun ∧ r.toNat ≤ 1 then [.pubRun (decide (r = 1#8))] else []) ++
          (if s.cfg.monPower then [.pubPower power] else []) ++
          (if s.cfg.monSpeed then [.pubSpeed speed] else []) }

/-- Where a frame lacks the bytes a rule reads: a status report of fewer than 13 bytes is the fault InterpShortFrame,
at INTERPRET and at the three rows (43_packet_interpreter section 3; decision D15); a byte string that lacks the byte a
class extracts, or `frame[4]`, is no accepted frame, and stops by the model's own name (log 8). -/
def Obligations.FramesTooShortForTheirRuleFault : Prop :=
  ∀ (f : Frame) (s : State),
    (f.length < 13 →
      (∀ i ∈ [Instr.rxStatus60 f, .rxStatus61 f, .rxStatus62 f], exec i s = .fault .interpShortFrame) ∧
      (f[4]? = some 0x07#8 → (f[3]? = some 0x60#8 ∨ f[3]? = some 0x61#8 ∨ f[3]? = some 0x62#8) →
        exec (.interpret f) s = .fault .interpShortFrame)) ∧
    (f.length < 7 → ∀ i ∈ [Instr.rxExtProg60 f, .rxExtProg61 f, .rxExtProg62 f],
      exec i s = .fault .frameByteAbsent) ∧
    (f.length < 8 → ∀ i ∈ [Instr.rxLocalProg60 f, .rxLocalProg61 f, .rxLocalProg62 f],
      exec i s = .fault .frameByteAbsent) ∧
    (f.length < 5 → exec (.interpret f) s = .fault .frameByteAbsent)

/-- INTERPRET of an accepted frame is the operation of the class the opcode table's RXCLASS rows give it, and nothing
where they give none; the second relevance disjunct has no effect (43_packet_interpreter sections 1 to 3, derived). -/
def Obligations.InterpretIsTheClassOfTheTable : Prop :=
  ∀ (f : Frame) (s : State), f.shaped = true →
    match decode (.accepted f) with
    | .instr i => exec (.interpret f) s = exec i s
    | .ignored => exec (.interpret f) s = .next s
    | .noRow _ _ => False

/-- No byte string belongs to two RXCLASS rows (30_encoding section 9). -/
def Obligations.NoFrameBelongsToTwoClasses : Prop :=
  ∀ f : Frame, (rxRows.filter fun r => maskMatch r.pattern r.mask f).length ≤ 1

/-- The observables have no other writer than a status report (and RESET): an operation that takes no status report, by
interpreting one or by completing one with its bytes, leaves them as they are; and an observable that is not monitored
is written by RESET alone (10_state section 4; 43_packet_interpreter section 2). -/
def Obligations.ObservablesHaveOneWriter : Prop :=
  ∀ (i : Instr) (s t : State), i ≠ .reset → exec i s = .next t →
    (statusReports s.rxBuf i = [] →
      t.obsRunning = s.obsRunning ∧ t.obsPower = s.obsPower ∧ t.obsSpeed = s.obsSpeed) ∧
    (s.cfg.monRun = false → t.obsRunning = s.obsRunning) ∧ (s.cfg.monPower = false → t.obsPower = s.obsPower) ∧
    (s.cfg.monSpeed = false → t.obsSpeed = s.obsSpeed)

/-! ### The whole machine -/

/-- A step runs the decoded operation: when the next transaction decodes to an operation, the step is that operation on
the state with the transaction taken (log 3). -/
def Obligations.StepRunsTheDecodedOperation : Prop :=
  ∀ (s : State) (x : Transaction) (rest : List Transaction) (i : Instr), s.inputs = x :: rest →
    decode x = .instr i → step s = exec i { s with inputs := rest }

/-- A step with nothing waiting leaves the state as it is (log 3). Bytes on the link that are no whole frame, and bytes
that are no row of the opcode table, arrive one RXBYTE at a time with their sample, the others waiting in front of the
inputs (30_encoding section 8; for coded bytes log 9). The command port's codes run the ten commands in the table's
order, and codes 10 to 15 are taken without effect (30_encoding section 7, decision D20). -/
def Obligations.StepAtTheInputPorts : Prop :=
  (∀ s : State, s.inputs = [] → step s = .next s) ∧
  (∀ (b : Byte) (later : List Byte) (now : Nat) (rest : List Transaction) (s : State),
    (s.inputs = .link (b :: later) now :: rest → readLink (b :: later) now = none →
      step s = exec (.rxByte b now) { s with inputs := .link later now :: rest }) ∧
    (s.inputs = .coded (b :: later) :: rest → readRow (b :: later) = none →
      step s = exec (.rxByte b 0) { s with inputs := .link later 0 :: rest })) ∧
  (∀ (x : Transaction) (now : Nat) (rest : List Transaction) (s : State), x = .link [] now ∨ x = .coded [] →
    s.inputs = x :: rest → step s = .next { s with inputs := rest }) ∧
  ∀ (op : BitVec 4) (n : Byte) (v : Word16) (rest : List Transaction) (s : State),
    s.inputs = .cmd op n v :: rest →
    step s = match [Instr.cmdReqStatus, .cmdForceLocal, .cmdForceRemote, .cmdRun, .cmdStop, .cmdSelLocal n,
        .cmdSelExt n, .cmdSave n v, .cmdSpeed v, .cmdFlow n][op.toNat]? with
      | some i => exec i { s with inputs := rest }
      | none => .next { s with inputs := rest }

/-- Decoding what presents a well-formed operation at the ports gives that operation, every operand at every value
(10_state section 8; 30_encoding sections 1 and 7). -/
def Obligations.DecodeOfEncodeIsTheOperation : Prop :=
  ∀ i : Instr, i.wf = true → decode (encode i) = .instr i

/-- The bytes a command queues are read back by the opcode table's CMD rows as a command that queues the same bytes
(30_encoding sections 2 and 9). They match the row FRAME too; that a command's row goes first is the model's choice,
log 9. -/
def Obligations.CommandFramesReadBackAsTheirCommand : Prop :=
  ∀ (i : Instr) (f : Frame), commandFrame i = some f →
    ∃ j, decode (.coded f) = .instr j ∧ commandFrame j = some f

/-- A few words of the opcode table, written out from the spec's encodings, decode to their rows. That coded bytes are
read as a command before they are read as a FRAME, and the transactions `coded`, `accepted` and `link`, are the model's
choice, log 9; FRAME's operands and its one sample are the model's choice, log 6. -/
def Obligations.SampleWordsDecode : Prop :=
  decode (.coded [0xFF, 0x00, 0xFF, 0xA5, 0x00, 0x60, 0x10, 0x06, 0x01, 0x0A, 0x01, 0x26]) = .instr .cmdRun ∧
  decode (.coded [0xFF, 0x00, 0xFF, 0xA5, 0x00, 0x60, 0x10, 0x0A, 0x04, 0x02, 0xC4, 0x07, 0x08, 0x01, 0xF8]) =
    .instr (.cmdSpeed 1800) ∧
  decode (.accepted [0xA5, 0x00, 0x10, 0x60, 0x04, 0x01, 0xFF, 0x02, 0x19]) =
    .instr (.rxRemoteCtrl60 [0xA5, 0x00, 0x10, 0x60, 0x04, 0x01, 0xFF, 0x02, 0x19]) ∧
  decode (.link [0xFF, 0x00, 0xFF, 0xA5, 0x00, 0x00, 0x00, 0x00, 0x00, 0x00, 0xA5] 7) =
    .instr (.frame 0 0 0 0 [] 0x00A5 7)

/-- The invariant holds at reset. -/
def Obligations.ResetStateMeetsTheInvariant : Prop := State.reset.inv = true

/-- Every step keeps the invariant: RX holds a plausible incomplete candidate, the timer fits its width, the queue its
depth (10_state sections 1 and 2; 20_memory section 5). -/
def Obligations.EveryStepKeepsTheInvariant : Prop :=
  ∀ s t : State, s.inv = true → step s = .next t → t.inv = true

/-- The invariant bounds the Receive Buffer: between operations it holds at most 265 bytes, so RXBUF_CAP = 266 is never
exceeded, in no operation's intermediate buffer either (20_memory section 5, derived). -/
def Obligations.ReceiveBufferNeverOverflows : Prop :=
  ∀ s : State, s.inv = true → s.rxBuf.length ≤ 265 ∧ ∀ b : Byte, (s.rxBuf ++ [b]).length ≤ Config.rxBufCap

/-- R20: no operation writes the parameters. -/
def Obligations.ParametersAreNeverWritten : Prop :=
  ∀ (i : Instr) (s t : State), exec i s = .next t → t.cfg = s.cfg

/-- Behaviour depends on the registers and the parameters only: two states that agree on them behave alike under every
operation, and outputs are only ever appended (10_state sections 1 and 6). -/
def Obligations.BehaviourDependsOnRegistersOnly : Prop :=
  ∀ (i : Instr) (s1 s2 : State), s1.cfg = s2.cfg → s1.registers = s2.registers →
    sameBehaviour s1.out s2.out (exec i s1) (exec i s2)

/-- The block has no fatal error path: a well-formed operation completes in every state unless it takes a status report
of fewer than 13 bytes, by interpreting it or by completing it with its bytes; then, and only then, it is the fault the
spec makes of that case. It is never refused (60_exceptions sections 1 and 8; decision D15). -/
def Obligations.OnlyAShortStatusReportStops : Prop :=
  ∀ (i : Instr) (s : State), i.wf = true →
    if ∃ f ∈ statusReports s.rxBuf i, f.length < 13 then exec i s = .fault .interpShortFrame
    else ∃ t, exec i s = .next t

/-- ENQ and RXBYTE commute: with an unbounded queue either order gives the same outcome (20_memory section 6,
decision D22). -/
def Obligations.EnqueueCommutesWithReception : Prop :=
  ∀ (f : Frame) (b : Byte) (t : Nat) (s : State), s.cfg.txqDepth = none →
    runOps [.enq f, .rxByte b t] s = runOps [.rxByte b t, .enq f] s
end

