-- ==== Sys2Proof/Laws/Operands.lean ====
section
/-! SUPPORT. The small lemmas of the byte-order, checksum and slice helpers. -/

namespace Sys2Proof.Machine

@[simp] theorem hi_toNat (v : Word16) : (hi v).toNat = v.toNat / 256 := by
  have := v.isLt
  simp only [hi, BitVec.toNat_ofNat]
  omega

@[simp] theorem lo_toNat (v : Word16) : (lo v).toNat = v.toNat % 256 := by
  simp only [lo, BitVec.toNat_ofNat]
  omega

@[simp] theorem be16_toNat (h l : Byte) : (be16 h l).toNat = h.toNat * 256 + l.toNat := by
  have := h.isLt
  have := l.isLt
  simp only [be16, BitVec.toNat_ofNat]
  omega

@[simp] theorem be16_hi_lo (v : Word16) : be16 (hi v) (lo v) = v := by
  apply BitVec.eq_of_toNat_eq
  simp only [be16_toNat, hi_toNat, lo_toNat]
  omega

@[simp] theorem hi_be16 (h l : Byte) : hi (be16 h l) = h := by
  have := l.isLt
  apply BitVec.eq_of_toNat_eq
  simp only [be16_toNat, hi_toNat]
  omega

@[simp] theorem lo_be16 (h l : Byte) : lo (be16 h l) = l := by
  have := l.isLt
  apply BitVec.eq_of_toNat_eq
  simp only [be16_toNat, lo_toNat]
  omega

/-- Two trailers are one pair of bytes only for one sum. -/
theorem be16_inj {h l h' l' : Byte} (e : be16 h l = be16 h' l') : h = h' ∧ l = l' :=
  ⟨by simpa using congrArg hi e, by simpa using congrArg lo e⟩

@[simp] theorem sumBytes_append (a b : List Byte) : sumBytes (a ++ b) = sumBytes a + sumBytes b := by
  induction a with
  | nil => simp [sumBytes]
  | cons x xs ih => simp [sumBytes, ih]; omega

theorem sumBytes_eq_sum (l : List Byte) : sumBytes l = (l.map BitVec.toNat).sum := by
  induction l with
  | nil => rfl
  | cons x xs ih => simp [sumBytes, ih]

@[simp] theorem checksum_toNat (l : List Byte) : (checksum l).toNat = sumBytes l % 65536 := by
  simp [checksum, Config.cksumMod]

@[simp] theorem trailer_length (c : Word16) : (trailer c).length = 2 := rfl

@[simp] theorem slice_length (a b : Nat) (s : List Byte) : (slice a b s).length = min (b - a) (s.length - a) := by
  simp [slice]

/-- Inside the first part an index reads the first part. -/
theorem byteAt_append_left {a b : List Byte} {i : Nat} (h : i < a.length) : byteAt (a ++ b) i = byteAt a i := by
  simp [byteAt, List.getElem?_append_left h]

theorem byteAt_append_right {a b : List Byte} {i : Nat} (h : a.length ≤ i) :
    byteAt (a ++ b) i = byteAt b (i - a.length) := by
  simp [byteAt, List.getElem?_append_right h]

theorem getElem?_of_byteAt {f : List Byte} {i : Nat} (h : i < f.length) : f[i]? = some (byteAt f i) := by
  simp [byteAt, List.getElem?_eq_getElem h]

@[simp] theorem encodeFrame_length (p : List Byte) : (encodeFrame p).length = p.length + 5 := by
  simp [encodeFrame, Config.preamble]

@[simp] theorem linkBytes_length (r0 r1 r2 r3 : Byte) (payload : List Byte) (ck : Word16) :
    (linkBytes r0 r1 r2 r3 payload ck).length = payload.length + 11 := by
  simp [linkBytes, Config.linkHeader]

/-- A slice that ends where the first part ends does not see the second. -/
theorem slice_append_left {a b : List Byte} {i j : Nat} (h : j ≤ a.length) : slice i j (a ++ b) = slice i j a := by
  unfold slice
  rcases Nat.le_total i a.length with hi | hi
  · rw [List.drop_append_of_le_length hi, List.take_append_of_le_length]
    simp; omega
  · have : j - i = 0 := by omega
    simp [this]

/-- A link frame is an encoded payload exactly when its trailer is the payload's sum (R86). -/
theorem linkBytes_eq_encodeFrame (r0 r1 r2 r3 : Byte) (payload : List Byte) :
    linkBytes r0 r1 r2 r3 payload
        (checksum ([0xA5, r0, r1, r2, r3, BitVec.ofNat 8 payload.length] ++ payload)) =
      encodeFrame ([0xA5, r0, r1, r2, r3, BitVec.ofNat 8 payload.length] ++ payload) := by
  simp [linkBytes, encodeFrame, Config.linkHeader, Config.preamble]

end Sys2Proof.Machine
end

