-- ==== Sys2Proof/Laws/Decode.lean ====
section
/-! SUPPORT. What decoding can answer: matching by mask, the classes of accepted frames, frames on the link, and that
every instruction decoded within the interpreter's contract is well formed. -/

namespace Sys2Proof

open Machine

@[simp] theorem and_zero_byte (x : Byte) : x &&& 0x00#8 = 0x00#8 := by simp

@[simp] theorem and_ones_byte (x : Byte) : x &&& 0xFF#8 = x := by
  apply BitVec.eq_of_getLsbD_eq
  intro i hi
  simp
  interval_cases i <;> simp

/-- An RXCLASS row tests frame bytes 0, 3, 4 and, where its mask says so, 6 (R90). -/
theorem maskMatch_class {f : Frame} (p3 p4 p6 m6 : Byte) (h : 7 ≤ f.length) :
    maskMatch [0xA5, 0x00, 0x00, p3, p4, 0x00, p6] [0xFF, 0x00, 0x00, 0xFF, 0xFF, 0x00, m6] f = true ↔
      byteAt f 0 = 0xA5#8 ∧ byteAt f 3 = p3 ∧ byteAt f 4 = p4 ∧ byteAt f 6 &&& m6 = p6 := by
  rcases f with _ | ⟨a0, _ | ⟨a1, _ | ⟨a2, _ | ⟨a3, _ | ⟨a4, _ | ⟨a5, _ | ⟨a6, rest⟩⟩⟩⟩⟩⟩⟩ <;>
    try (simp at h; done)
  simp only [maskMatch, decide_eq_true_eq, List.length_cons, List.length_nil, List.take_succ_cons,
    List.zipWith_cons_cons, List.take, List.zipWith_nil_right, List.cons.injEq, and_true]
  change (a0 &&& 0xFF#8 = _ ∧ a1 &&& 0x00#8 = 0x00#8 ∧ a2 &&& 0x00#8 = 0x00#8 ∧ a3 &&& 0xFF#8 = p3 ∧
    a4 &&& 0xFF#8 = p4 ∧ a5 &&& 0x00#8 = 0x00#8 ∧ a6 &&& m6 = p6) ↔ _
  simp only [and_zero_byte, and_ones_byte, true_and]
  rfl

/-- Bytes too few for a row's `match` do not match it. -/
theorem maskMatch_short {p m f : List Byte} (h : f.length < p.length) : maskMatch p m f = false := by
  simp only [maskMatch, decide_eq_false_iff_not]
  intro e
  have := congrArg List.length e
  simp at this
  omega

/-- An accepted frame's layout (R85). -/
theorem Frame.shaped_iff {f : Frame} :
    f.shaped = true ↔ f[0]? = some 0xA5#8 ∧ ∃ l, f[5]? = some l ∧ f.length = l.toNat + 8 := by
  unfold Frame.shaped
  rcases f[5]? with _ | l <;> simp

theorem Frame.shaped_length {f : Frame} (h : f.shaped = true) : 8 ≤ f.length := by
  obtain ⟨_, l, _, hl⟩ := Frame.shaped_iff.mp h
  omega

/-- The class read is one of the fifteen rows, and the frame has the row's bytes. -/
theorem readClass_cases {f : Frame} {i : Instr} (h : readClass f = some i) :
    ∃ r ∈ rxRows, maskMatch r.pattern r.mask f = true ∧ i = r.make f := by
  unfold readClass at h
  rcases hf : rxRows.find? (fun r => maskMatch r.pattern r.mask f) with _ | r
  · simp [hf] at h
  · exact ⟨r, List.mem_of_find?_eq_some hf, List.find?_some (p := fun r : RxRow => maskMatch r.pattern r.mask f) hf, by simpa [hf] using h.symm⟩

theorem readClass_wf {f : Frame} {i : Instr} (hs : f.shaped = true) (h : readClass f = some i) : i.wf = true := by
  obtain ⟨r, hr, hm, rfl⟩ := readClass_cases h
  have h8 := Frame.shaped_length hs
  simp only [rxRows, List.mem_cons, List.not_mem_nil, or_false] at hr
  rcases hr with rfl | rfl | rfl | rfl | rfl | rfl | rfl | rfl | rfl | rfl | rfl | rfl | rfl | rfl | rfl
  all_goals
    obtain ⟨-, h3, h4, h6⟩ := (maskMatch_class _ _ _ _ (by omega)).mp hm
    simp at h3 h4 h6
    simp [Instr.wf, Frame.hasIds, Frame.hasFirst, hs, getElem?_of_byteAt (show 3 < f.length by omega),
      getElem?_of_byteAt (show 4 < f.length by omega), getElem?_of_byteAt (show 6 < f.length by omega), h3, h4, h6]

theorem readLink_wf {bytes : List Byte} {t : Nat} {i : Instr} (h : readLink bytes t = some i) : i.wf = true := by
  unfold readLink at h
  dsimp only at h
  have hb := (byteAt bytes Config.lenPos).isLt
  split at h
  · obtain rfl := Option.some.inj h
    simp only [Instr.wf, slice_length, decide_eq_true_eq]
    omega
  · cases h

theorem readCommand_wf {bytes : List Byte} {i : Instr} (h : readCommand bytes = some i) : i.wf = true := by
  obtain ⟨r, hr, hi⟩ := List.exists_of_findSome?_eq_some h
  split at hi
  · simp only [fixedCmdRows, argCmdRows, List.cons_append, List.nil_append, List.mem_cons, List.not_mem_nil,
      or_false] at hr
    rcases hr with rfl | rfl | rfl | rfl | rfl | rfl | rfl | rfl | rfl | rfl
    case inr.inr.inr.inr.inr.inr.inl =>
      dsimp only at hi
      split at hi
      · obtain rfl := Option.some.inj hi
        rfl
      · cases hi
    all_goals
      obtain rfl := Option.some.inj hi
      rfl
  · cases hi

theorem decodeCmdPort_wf {op : BitVec 4} {n : Byte} {v : Word16} {i : Instr}
    (h : decodeCmdPort op n v = .instr i) : i.wf = true := by
  unfold decodeCmdPort at h
  split at h <;> first | (obtain rfl := Decoded.instr.inj h; rfl) | cases h

theorem readRow_wf {bytes : List Byte} {i : Instr} (h : readRow bytes = some i) : i.wf = true := by
  unfold readRow at h
  split at h
  · rename_i j hj
    obtain rfl := Option.some.inj h
    rcases hc : readCommand bytes with _ | k
    · exact readLink_wf hj
    · exact readCommand_wf hc
  · split at h
    · rename_i hs
      exact readClass_wf hs h
    · cases h

/-- What decoding gives is well formed, where the interpreter is handed accepted frames only (R210). -/
theorem decode_wf {x : Transaction} {i : Instr} (hx : x.wf = true) (h : decode x = .instr i) : i.wf = true := by
  cases x with
  | cmd op n v => exact decodeCmdPort_wf h
  | coded bytes =>
    simp only [decode] at h
    split at h
    · rename_i hj
      obtain rfl := Decoded.instr.inj h
      exact readRow_wf hj
    · cases h
  | link bytes now =>
    simp only [decode] at h
    split at h
    · rename_i hj
      obtain rfl := Decoded.instr.inj h
      exact readLink_wf hj
    · cases h
  | accepted f =>
    simp only [decode] at h
    split at h
    · rename_i hc
      obtain rfl := Decoded.instr.inj h
      exact readClass_wf hx hc
    · cases h
  | interpretCall f =>
    obtain rfl := Decoded.instr.inj h
    exact hx
  | _ =>
    obtain rfl := Decoded.instr.inj h
    rfl

end Sys2Proof
end

