-- ==== Sys2Proof/Laws/State.lean ====
section
/-! SUPPORT. One lemma per field of State per named update, each true by rfl, so that no proof unfolds a record update. -/

namespace Sys2Proof.Machine

@[simp] theorem State.emit_cfg (s : State) (e : Event) : (s.emit e).cfg = s.cfg := rfl
@[simp] theorem State.emit_rxBuf (s : State) (e : Event) : (s.emit e).rxBuf = s.rxBuf := rfl
@[simp] theorem State.emit_txq (s : State) (e : Event) : (s.emit e).txq = s.txq := rfl
@[simp] theorem State.emit_lastActivity (s : State) (e : Event) : (s.emit e).lastActivity = s.lastActivity := rfl
@[simp] theorem State.emit_schedState (s : State) (e : Event) : (s.emit e).schedState = s.schedState := rfl
@[simp] theorem State.emit_obsRunning (s : State) (e : Event) : (s.emit e).obsRunning = s.obsRunning := rfl
@[simp] theorem State.emit_obsPower (s : State) (e : Event) : (s.emit e).obsPower = s.obsPower := rfl
@[simp] theorem State.emit_obsSpeed (s : State) (e : Event) : (s.emit e).obsSpeed = s.obsSpeed := rfl
@[simp] theorem State.emit_out (s : State) (e : Event) : (s.emit e).out = s.out ++ [e] := rfl
@[simp] theorem State.emit_ret (s : State) (e : Event) : (s.emit e).ret = s.ret := rfl
@[simp] theorem State.emit_inputs (s : State) (e : Event) : (s.emit e).inputs = s.inputs := rfl

@[simp] theorem State.withRx_cfg (s : State) (m : List Byte) : (s.withRx m).cfg = s.cfg := rfl
@[simp] theorem State.withRx_rxBuf (s : State) (m : List Byte) : (s.withRx m).rxBuf = m := rfl
@[simp] theorem State.withRx_txq (s : State) (m : List Byte) : (s.withRx m).txq = s.txq := rfl
@[simp] theorem State.withRx_lastActivity (s : State) (m : List Byte) : (s.withRx m).lastActivity = s.lastActivity := rfl
@[simp] theorem State.withRx_schedState (s : State) (m : List Byte) : (s.withRx m).schedState = s.schedState := rfl
@[simp] theorem State.withRx_obsRunning (s : State) (m : List Byte) : (s.withRx m).obsRunning = s.obsRunning := rfl
@[simp] theorem State.withRx_obsPower (s : State) (m : List Byte) : (s.withRx m).obsPower = s.obsPower := rfl
@[simp] theorem State.withRx_obsSpeed (s : State) (m : List Byte) : (s.withRx m).obsSpeed = s.obsSpeed := rfl
@[simp] theorem State.withRx_out (s : State) (m : List Byte) : (s.withRx m).out = s.out := rfl
@[simp] theorem State.withRx_ret (s : State) (m : List Byte) : (s.withRx m).ret = s.ret := rfl
@[simp] theorem State.withRx_inputs (s : State) (m : List Byte) : (s.withRx m).inputs = s.inputs := rfl

@[simp] theorem State.withTxq_cfg (s : State) (q : List Frame) : (s.withTxq q).cfg = s.cfg := rfl
@[simp] theorem State.withTxq_rxBuf (s : State) (q : List Frame) : (s.withTxq q).rxBuf = s.rxBuf := rfl
@[simp] theorem State.withTxq_txq (s : State) (q : List Frame) : (s.withTxq q).txq = q := rfl
@[simp] theorem State.withTxq_lastActivity (s : State) (q : List Frame) : (s.withTxq q).lastActivity = s.lastActivity := rfl
@[simp] theorem State.withTxq_schedState (s : State) (q : List Frame) : (s.withTxq q).schedState = s.schedState := rfl
@[simp] theorem State.withTxq_obsRunning (s : State) (q : List Frame) : (s.withTxq q).obsRunning = s.obsRunning := rfl
@[simp] theorem State.withTxq_obsPower (s : State) (q : List Frame) : (s.withTxq q).obsPower = s.obsPower := rfl
@[simp] theorem State.withTxq_obsSpeed (s : State) (q : List Frame) : (s.withTxq q).obsSpeed = s.obsSpeed := rfl
@[simp] theorem State.withTxq_out (s : State) (q : List Frame) : (s.withTxq q).out = s.out := rfl
@[simp] theorem State.withTxq_ret (s : State) (q : List Frame) : (s.withTxq q).ret = s.ret := rfl
@[simp] theorem State.withTxq_inputs (s : State) (q : List Frame) : (s.withTxq q).inputs = s.inputs := rfl

@[simp] theorem State.withSched_cfg (s : State) (x : SchedState) : (s.withSched x).cfg = s.cfg := rfl
@[simp] theorem State.withSched_rxBuf (s : State) (x : SchedState) : (s.withSched x).rxBuf = s.rxBuf := rfl
@[simp] theorem State.withSched_txq (s : State) (x : SchedState) : (s.withSched x).txq = s.txq := rfl
@[simp] theorem State.withSched_lastActivity (s : State) (x : SchedState) : (s.withSched x).lastActivity = s.lastActivity := rfl
@[simp] theorem State.withSched_schedState (s : State) (x : SchedState) : (s.withSched x).schedState = x := rfl
@[simp] theorem State.withSched_obsRunning (s : State) (x : SchedState) : (s.withSched x).obsRunning = s.obsRunning := rfl
@[simp] theorem State.withSched_obsPower (s : State) (x : SchedState) : (s.withSched x).obsPower = s.obsPower := rfl
@[simp] theorem State.withSched_obsSpeed (s : State) (x : SchedState) : (s.withSched x).obsSpeed = s.obsSpeed := rfl
@[simp] theorem State.withSched_out (s : State) (x : SchedState) : (s.withSched x).out = s.out := rfl
@[simp] theorem State.withSched_ret (s : State) (x : SchedState) : (s.withSched x).ret = s.ret := rfl
@[simp] theorem State.withSched_inputs (s : State) (x : SchedState) : (s.withSched x).inputs = s.inputs := rfl

@[simp] theorem State.stampBusy_cfg (s : State) (t : Nat) : (s.stampBusy t).cfg = s.cfg := rfl
@[simp] theorem State.stampBusy_rxBuf (s : State) (t : Nat) : (s.stampBusy t).rxBuf = s.rxBuf := rfl
@[simp] theorem State.stampBusy_txq (s : State) (t : Nat) : (s.stampBusy t).txq = s.txq := rfl
@[simp] theorem State.stampBusy_lastActivity (s : State) (t : Nat) : (s.stampBusy t).lastActivity = sample s.cfg.clkW t := rfl
@[simp] theorem State.stampBusy_schedState (s : State) (t : Nat) : (s.stampBusy t).schedState = .busy := rfl
@[simp] theorem State.stampBusy_obsRunning (s : State) (t : Nat) : (s.stampBusy t).obsRunning = s.obsRunning := rfl
@[simp] theorem State.stampBusy_obsPower (s : State) (t : Nat) : (s.stampBusy t).obsPower = s.obsPower := rfl
@[simp] theorem State.stampBusy_obsSpeed (s : State) (t : Nat) : (s.stampBusy t).obsSpeed = s.obsSpeed := rfl
@[simp] theorem State.stampBusy_out (s : State) (t : Nat) : (s.stampBusy t).out = s.out := rfl
@[simp] theorem State.stampBusy_ret (s : State) (t : Nat) : (s.stampBusy t).ret = s.ret := rfl
@[simp] theorem State.stampBusy_inputs (s : State) (t : Nat) : (s.stampBusy t).inputs = s.inputs := rfl

@[simp] theorem State.publishRun_cfg (s : State) (v : Bool) : (s.publishRun v).cfg = s.cfg := rfl
@[simp] theorem State.publishRun_rxBuf (s : State) (v : Bool) : (s.publishRun v).rxBuf = s.rxBuf := rfl
@[simp] theorem State.publishRun_txq (s : State) (v : Bool) : (s.publishRun v).txq = s.txq := rfl
@[simp] theorem State.publishRun_lastActivity (s : State) (v : Bool) : (s.publishRun v).lastActivity = s.lastActivity := rfl
@[simp] theorem State.publishRun_schedState (s : State) (v : Bool) : (s.publishRun v).schedState = s.schedState := rfl
@[simp] theorem State.publishRun_obsRunning (s : State) (v : Bool) : (s.publishRun v).obsRunning = some v := rfl
@[simp] theorem State.publishRun_obsPower (s : State) (v : Bool) : (s.publishRun v).obsPower = s.obsPower := rfl
@[simp] theorem State.publishRun_obsSpeed (s : State) (v : Bool) : (s.publishRun v).obsSpeed = s.obsSpeed := rfl
@[simp] theorem State.publishRun_out (s : State) (v : Bool) : (s.publishRun v).out = s.out ++ [.pubRun v] := rfl
@[simp] theorem State.publishRun_ret (s : State) (v : Bool) : (s.publishRun v).ret = s.ret := rfl
@[simp] theorem State.publishRun_inputs (s : State) (v : Bool) : (s.publishRun v).inputs = s.inputs := rfl

@[simp] theorem State.publishPower_cfg (s : State) (v : Word16) : (s.publishPower v).cfg = s.cfg := rfl
@[simp] theorem State.publishPower_rxBuf (s : State) (v : Word16) : (s.publishPower v).rxBuf = s.rxBuf := rfl
@[simp] theorem State.publishPower_txq (s : State) (v : Word16) : (s.publishPower v).txq = s.txq := rfl
@[simp] theorem State.publishPower_lastActivity (s : State) (v : Word16) : (s.publishPower v).lastActivity = s.lastActivity := rfl
@[simp] theorem State.publishPower_schedState (s : State) (v : Word16) : (s.publishPower v).schedState = s.schedState := rfl
@[simp] theorem State.publishPower_obsRunning (s : State) (v : Word16) : (s.publishPower v).obsRunning = s.obsRunning := rfl
@[simp] theorem State.publishPower_obsPower (s : State) (v : Word16) : (s.publishPower v).obsPower = some v := rfl
@[simp] theorem State.publishPower_obsSpeed (s : State) (v : Word16) : (s.publishPower v).obsSpeed = s.obsSpeed := rfl
@[simp] theorem State.publishPower_out (s : State) (v : Word16) : (s.publishPower v).out = s.out ++ [.pubPower v] := rfl
@[simp] theorem State.publishPower_ret (s : State) (v : Word16) : (s.publishPower v).ret = s.ret := rfl
@[simp] theorem State.publishPower_inputs (s : State) (v : Word16) : (s.publishPower v).inputs = s.inputs := rfl

@[simp] theorem State.publishSpeed_cfg (s : State) (v : Word16) : (s.publishSpeed v).cfg = s.cfg := rfl
@[simp] theorem State.publishSpeed_rxBuf (s : State) (v : Word16) : (s.publishSpeed v).rxBuf = s.rxBuf := rfl
@[simp] theorem State.publishSpeed_txq (s : State) (v : Word16) : (s.publishSpeed v).txq = s.txq := rfl
@[simp] theorem State.publishSpeed_lastActivity (s : State) (v : Word16) : (s.publishSpeed v).lastActivity = s.lastActivity := rfl
@[simp] theorem State.publishSpeed_schedState (s : State) (v : Word16) : (s.publishSpeed v).schedState = s.schedState := rfl
@[simp] theorem State.publishSpeed_obsRunning (s : State) (v : Word16) : (s.publishSpeed v).obsRunning = s.obsRunning := rfl
@[simp] theorem State.publishSpeed_obsPower (s : State) (v : Word16) : (s.publishSpeed v).obsPower = s.obsPower := rfl
@[simp] theorem State.publishSpeed_obsSpeed (s : State) (v : Word16) : (s.publishSpeed v).obsSpeed = some v := rfl
@[simp] theorem State.publishSpeed_out (s : State) (v : Word16) : (s.publishSpeed v).out = s.out ++ [.pubSpeed v] := rfl
@[simp] theorem State.publishSpeed_ret (s : State) (v : Word16) : (s.publishSpeed v).ret = s.ret := rfl
@[simp] theorem State.publishSpeed_inputs (s : State) (v : Word16) : (s.publishSpeed v).inputs = s.inputs := rfl

@[simp] theorem State.withRet_cfg (s : State) (f : Frame) : (s.withRet f).cfg = s.cfg := rfl
@[simp] theorem State.withRet_rxBuf (s : State) (f : Frame) : (s.withRet f).rxBuf = s.rxBuf := rfl
@[simp] theorem State.withRet_txq (s : State) (f : Frame) : (s.withRet f).txq = s.txq := rfl
@[simp] theorem State.withRet_lastActivity (s : State) (f : Frame) : (s.withRet f).lastActivity = s.lastActivity := rfl
@[simp] theorem State.withRet_schedState (s : State) (f : Frame) : (s.withRet f).schedState = s.schedState := rfl
@[simp] theorem State.withRet_obsRunning (s : State) (f : Frame) : (s.withRet f).obsRunning = s.obsRunning := rfl
@[simp] theorem State.withRet_obsPower (s : State) (f : Frame) : (s.withRet f).obsPower = s.obsPower := rfl
@[simp] theorem State.withRet_obsSpeed (s : State) (f : Frame) : (s.withRet f).obsSpeed = s.obsSpeed := rfl
@[simp] theorem State.withRet_out (s : State) (f : Frame) : (s.withRet f).out = s.out := rfl
@[simp] theorem State.withRet_ret (s : State) (f : Frame) : (s.withRet f).ret = some f := rfl
@[simp] theorem State.withRet_inputs (s : State) (f : Frame) : (s.withRet f).inputs = s.inputs := rfl

@[simp] theorem State.withInputs_cfg (s : State) (l : List Transaction) : (s.withInputs l).cfg = s.cfg := rfl
@[simp] theorem State.withInputs_rxBuf (s : State) (l : List Transaction) : (s.withInputs l).rxBuf = s.rxBuf := rfl
@[simp] theorem State.withInputs_txq (s : State) (l : List Transaction) : (s.withInputs l).txq = s.txq := rfl
@[simp] theorem State.withInputs_lastActivity (s : State) (l : List Transaction) : (s.withInputs l).lastActivity = s.lastActivity := rfl
@[simp] theorem State.withInputs_schedState (s : State) (l : List Transaction) : (s.withInputs l).schedState = s.schedState := rfl
@[simp] theorem State.withInputs_obsRunning (s : State) (l : List Transaction) : (s.withInputs l).obsRunning = s.obsRunning := rfl
@[simp] theorem State.withInputs_obsPower (s : State) (l : List Transaction) : (s.withInputs l).obsPower = s.obsPower := rfl
@[simp] theorem State.withInputs_obsSpeed (s : State) (l : List Transaction) : (s.withInputs l).obsSpeed = s.obsSpeed := rfl
@[simp] theorem State.withInputs_out (s : State) (l : List Transaction) : (s.withInputs l).out = s.out := rfl
@[simp] theorem State.withInputs_ret (s : State) (l : List Transaction) : (s.withInputs l).ret = s.ret := rfl
@[simp] theorem State.withInputs_inputs (s : State) (l : List Transaction) : (s.withInputs l).inputs = l := rfl

@[simp] theorem State.clearRegisters_cfg (s : State) : (s.clearRegisters).cfg = s.cfg := rfl
@[simp] theorem State.clearRegisters_rxBuf (s : State) : (s.clearRegisters).rxBuf = [] := rfl
@[simp] theorem State.clearRegisters_txq (s : State) : (s.clearRegisters).txq = [] := rfl
@[simp] theorem State.clearRegisters_lastActivity (s : State) : (s.clearRegisters).lastActivity = 0 := rfl
@[simp] theorem State.clearRegisters_schedState (s : State) : (s.clearRegisters).schedState = .busy := rfl
@[simp] theorem State.clearRegisters_obsRunning (s : State) : (s.clearRegisters).obsRunning = none := rfl
@[simp] theorem State.clearRegisters_obsPower (s : State) : (s.clearRegisters).obsPower = none := rfl
@[simp] theorem State.clearRegisters_obsSpeed (s : State) : (s.clearRegisters).obsSpeed = none := rfl
@[simp] theorem State.clearRegisters_out (s : State) : (s.clearRegisters).out = s.out := rfl
@[simp] theorem State.clearRegisters_ret (s : State) : (s.clearRegisters).ret = s.ret := rfl
@[simp] theorem State.clearRegisters_inputs (s : State) : (s.clearRegisters).inputs = s.inputs := rfl

end Sys2Proof.Machine
end

