-- ==== Sys2Proof/Laws/Ops.lean ====
section
/-! SUPPORT. What the shared operations can do: sequencing, enqueueing, the timer, fetching. -/

namespace Sys2Proof.Machine

@[simp] theorem andThen_next (s : State) (k : State → Result) : andThen (.next s) k = k s := rfl
@[simp] theorem andThen_fault (f : Fault) (k : State → Result) : andThen (.fault f) k = .fault f := rfl
@[simp] theorem andThen_refused (x : Refusal) (k : State → Result) : andThen (.refused x) k = .refused x := rfl

theorem andThen_eq_next {r : Result} {k : State → Result} {t : State} :
    andThen r k = .next t ↔ ∃ u, r = .next u ∧ k u = .next t := by
  cases r <;> simp

theorem andThen_assoc (r : Result) (k l : State → Result) :
    andThen (andThen r k) l = andThen r fun s => andThen (k s) l := by
  cases r <;> rfl

theorem enqueue_of_room {f : Frame} {s : State} (h : s.txqFull = false) :
    enqueue f s = s.withTxq (s.txq ++ [f]) := by
  simp [enqueue, h]

theorem enqueue_of_full {f : Frame} {s : State} (h : s.txqFull = true) :
    enqueue f s = s.emit (.diag .warn .txqOverflow (.bytes f)) := by
  simp [enqueue, h]

theorem txqFull_of_unbounded {s : State} (h : s.cfg.txqDepth = none) : s.txqFull = false := by
  simp [State.txqFull, h]

/-- `elapsed` is the spec's modular difference (R9, R158). -/
theorem elapsed_eq_int (w t t0 : Nat) : (elapsed w t t0 : Int) = ((t : Int) - t0) % (2 ^ w : Int) := by
  have hpos : 0 < 2 ^ w := Nat.two_pow_pos w
  have h0 : t0 % 2 ^ w < 2 ^ w := Nat.mod_lt _ hpos
  have hle : t0 % 2 ^ w ≤ t % 2 ^ w + 2 ^ w := by omega
  unfold elapsed
  push_cast [Nat.cast_sub hle]
  have : (t : Int) % 2 ^ w + 2 ^ w - (t0 : Int) % 2 ^ w = ((t : Int) % 2 ^ w - (t0 : Int) % 2 ^ w) + 2 ^ w := by ring
  rw [this, Int.add_emod_right, ← Int.sub_emod]

/-- Without a wrap between the two samples, elapsed time is the difference. -/
theorem elapsed_of_le {w t t0 : Nat} (h : t0 ≤ t) (hw : t < t0 + 2 ^ w) : elapsed w t (t0 % 2 ^ w) = t - t0 := by
  have e := elapsed_eq_int w t (t0 % 2 ^ w)
  have : ((t : Int) - ((t0 % 2 ^ w : Nat) : Int)) % (2 ^ w : Int) = (((t - t0 : Nat) : Int)) := by
    push_cast [Nat.cast_sub h]
    rw [Int.sub_emod, Int.emod_emod, ← Int.sub_emod]
    apply Int.emod_eq_of_lt <;> push_cast <;> [omega; skip]
    have : (t : Int) < t0 + 2 ^ w := by exact_mod_cast hw
    omega
  rw [this] at e
  exact_mod_cast e

@[simp] theorem elapsed_self (w t : Nat) : elapsed w t (sample w t) = 0 := by
  have := elapsed_of_le (w := w) (Nat.le_refl t) (by have := Nat.two_pow_pos w; omega)
  simpa [sample] using this

theorem sample_lt (w t : Nat) : sample w t < 2 ^ w := Nat.mod_lt _ (Nat.two_pow_pos w)

theorem fetch_instr {s : State} {x : Transaction} {rest : List Transaction} {i : Instr}
    (h : s.inputs = x :: rest) (d : decode x = .instr i) : fetch s = .instr i (s.withInputs rest) := by
  simp [fetch, h, d]

theorem fetch_idle {s : State} (h : s.inputs = []) : fetch s = .idle := by simp [fetch, h]

theorem fetch_ignored {s : State} {x : Transaction} {rest : List Transaction}
    (h : s.inputs = x :: rest) (d : decode x = .ignored) : fetch s = .ignored (s.withInputs rest) := by
  simp [fetch, h, d]

/-- Bytes that are no row of the table arrive one by one. -/
theorem fetch_noRow {s : State} {x : Transaction} {rest : List Transaction} {bytes : List Byte} {now : Nat}
    (h : s.inputs = x :: rest) (d : decode x = .noRow bytes now) : fetch s = arriving bytes now rest s := by
  simp [fetch, h, d]

@[simp] theorem arriving_nil (now : Nat) (rest : List Transaction) (s : State) :
    arriving [] now rest s = .ignored (s.withInputs rest) := rfl

@[simp] theorem arriving_cons (b : Byte) (later : List Byte) (now : Nat) (rest : List Transaction) (s : State) :
    arriving (b :: later) now rest s = .instr (.rxByte b now) (s.withInputs (.link later now :: rest)) := rfl

/-- Everything a step can do when it answers a next state: only the inputs change, or an operation runs on the state with
what was taken gone from the inputs. -/
theorem step_cases {s t : State} (h : step s = .next t) :
    (∃ l, t = s.withInputs l) ∨ ∃ i l, exec i (s.withInputs l) = .next t := by
  unfold step fetch arriving at h
  split at h
  · exact .inl ⟨s.inputs, (Host.Outcome.next.inj h).symm⟩
  · rename_i e
    obtain rfl := Host.Outcome.next.inj h
    refine .inl ?_
    repeat' split at e
    all_goals cases e <;> exact ⟨_, rfl⟩
  · rename_i e
    refine .inr ?_
    repeat' split at e
    all_goals cases e <;> exact ⟨_, _, h⟩

/-- What a step does, by what was fetched. -/
theorem step_of_fetch_instr {s t : State} {i : Instr} (h : fetch s = .instr i t) : step s = exec i t := by
  simp [step, h]

end Sys2Proof.Machine
end

