-- ==== Sys2Proof/Laws/Interpreter.lean ====
section
/-! SUPPORT. What the Packet Interpreter can do, said once. -/

namespace Sys2Proof.Machine

theorem withFrameByte_some {f : Frame} {i : Nat} {b : Byte} (k : Byte → Result) (h : f[i]? = some b) :
    withFrameByte f i k = k b := by simp [withFrameByte, h]

theorem withFrameByte_none {f : Frame} {i : Nat} (k : Byte → Result) (h : f[i]? = none) :
    withFrameByte f i k = .fault .frameByteAbsent := by simp [withFrameByte, h]

/-- The run part of a status report, by the run byte's value (R216). -/
theorem reportRun_eq (r : Byte) (s : State) :
    reportRun r s =
      { s with
        obsRunning := if s.cfg.monRun ∧ r.toNat ≤ 1 then some (decide (r = 1#8)) else s.obsRunning
        out := s.out ++ (if 1 < r.toNat then [.diag .info .runUnknown (.byte r)] else []) ++
          (if s.cfg.monRun ∧ r.toNat ≤ 1 then [.pubRun (decide (r = 1#8))] else []) } := by
  unfold reportRun
  by_cases c0 : r = 0#8
  · subst c0
    cases h : s.cfg.monRun <;> simp [State.publishRun]
  · by_cases c1 : r = 1#8
    · subst c1
      cases h : s.cfg.monRun <;> simp [State.publishRun]
    · have n0 : r.toNat ≠ 0 := fun e => c0 (BitVec.eq_of_toNat_eq (by simpa using e))
      have n1 : r.toNat ≠ 1 := fun e => c1 (BitVec.eq_of_toNat_eq (by simpa using e))
      have hgt : 1 < r.toNat := by omega
      have hle : ¬ r.toNat ≤ 1 := by omega
      simp [c0, c1, hgt, hle, State.emit]

theorem reportPower_eq (v : Word16) (s : State) :
    reportPower v s =
      { s with
        obsPower := if s.cfg.monPower then some v else s.obsPower
        out := s.out ++ if s.cfg.monPower then [.pubPower v] else [] } := by
  unfold reportPower
  cases h : s.cfg.monPower <;> simp [State.publishPower]

theorem reportSpeed_eq (v : Word16) (s : State) :
    reportSpeed v s =
      { s with
        obsSpeed := if s.cfg.monSpeed then some v else s.obsSpeed
        out := s.out ++ if s.cfg.monSpeed then [.pubSpeed v] else [] } := by
  unfold reportSpeed
  cases h : s.cfg.monSpeed <;> simp [State.publishSpeed]

/-- The events of a status report with run byte `r` (R216). -/
def statusEvents (c : Params) (r : Byte) (power speed : Word16) : List Event :=
  (if 1 < r.toNat then [.diag .info .runUnknown (.byte r)] else []) ++
    (if c.monRun ∧ r.toNat ≤ 1 then [.pubRun (decide (r = 1#8))] else []) ++
    (if c.monPower then [.pubPower power] else []) ++ (if c.monSpeed then [.pubSpeed speed] else [])

/-- A status report that is long enough writes the monitored observables and emits its events, nothing else. -/
theorem statusReport_long {f : Frame} (s : State) (h : 13 ≤ f.length) :
    statusReport f s = .next
      { s with
        obsRunning := if s.cfg.monRun ∧ (byteAt f 6).toNat ≤ 1 then some (decide (byteAt f 6 = 1#8)) else s.obsRunning
        obsPower := if s.cfg.monPower then some (be16 (byteAt f 9) (byteAt f 10)) else s.obsPower
        obsSpeed := if s.cfg.monSpeed then some (be16 (byteAt f 11) (byteAt f 12)) else s.obsSpeed
        out := s.out ++ statusEvents s.cfg (byteAt f 6) (be16 (byteAt f 9) (byteAt f 10))
          (be16 (byteAt f 11) (byteAt f 12)) } := by
  have hlt : ¬ f.length < Config.statusMinLen := by simp only [Config.statusMinLen]; omega
  rw [statusReport, if_neg hlt, reportRun_eq, reportPower_eq, reportSpeed_eq]
  simp only [statusEvents, List.append_assoc]

theorem statusReport_short {f : Frame} (s : State) (h : f.length < 13) :
    statusReport f s = .fault .interpShortFrame := by
  simp [statusReport, Config.statusMinLen, h]

/-- INTERPRET on a byte string with at least the eight bytes of an accepted frame: nothing, one report, or a status
report. -/
theorem interpretFrame_cases {f : Frame} (h : 8 ≤ f.length) :
    (∀ s, interpretFrame f s = .next s) ∨
    (∃ c d, c ≠ .malformedOutbound ∧ ∀ s, interpretFrame f s = .next (s.emit (.diag .info c d))) ∨
    (byteAt f 4 = 0x07#8 ∧ (byteAt f 3 = 0x60#8 ∨ byteAt f 3 = 0x61#8 ∨ byteAt f 3 = 0x62#8) ∧
      ∀ s, interpretFrame f s = statusReport f s) := by
  have e (i : Nat) (hi : i < 8) : f[i]? = some (byteAt f i) := getElem?_of_byteAt (by omega)
  simp only [interpretFrame, withFrameByte_some _ (e 3 (by omega)), withFrameByte_some _ (e 4 (by omega)), extProg,
    controlReport, localProg, localCtrl, remoteCtrl, withFrameByte_some _ (e 6 (by omega)),
    withFrameByte_some _ (e 7 (by omega))]
  generalize byteAt f 3 = f3
  generalize byteAt f 4 = f4
  generalize byteAt f 6 = f6
  generalize byteAt f 7 = f7
  by_cases hr : relevant f3 f4 = false
  · exact .inl fun s => if_pos hr
  · simp only [if_neg hr]
    by_cases c1 : f4 = 0x01#8
    · simp only [if_pos c1]
      exact .inr (.inl ⟨.extProg, .byte f6, by decide, fun s => rfl⟩)
    by_cases c4 : f4 = 0x04#8
    · simp only [if_neg c1, if_pos c4]
      by_cases d0 : f6 = 0x00#8
      · simp only [if_pos d0]
        exact .inr (.inl ⟨.localCtrl, .none, by decide, fun s => rfl⟩)
      by_cases dF : f6 = 0xFF#8
      · simp only [if_neg d0, if_pos dF]
        exact .inr (.inl ⟨.remoteCtrl, .none, by decide, fun s => rfl⟩)
      · simp only [if_neg d0, if_neg dF]
        exact .inl fun s => trivial
    by_cases c5 : f4 = 0x05#8
    · simp only [if_neg c1, if_neg c4, if_pos c5]
      exact .inr (.inl ⟨.localProg, .byte f7, by decide, fun s => rfl⟩)
    by_cases c7 : f4 = 0x07#8
    · simp only [if_neg c1, if_neg c4, if_neg c5, if_pos c7]
      refine .inr (.inr ⟨c7, ?_, fun s => trivial⟩)
      subst c7
      simp [relevant] at hr
      tauto
    · simp only [if_neg c1, if_neg c4, if_neg c5, if_neg c7]
      exact .inl fun s => trivial

/-- The events INTERPRET can emit: publishes and informational diagnostics. -/
def isReport : Event → Bool
  | .pubRun _ => true
  | .pubPower _ => true
  | .pubSpeed _ => true
  | .diag .info c _ => decide (c ≠ .malformedOutbound)
  | _ => false

theorem statusEvents_isReport (c : Params) (r : Byte) (p v : Word16) :
    ∀ e ∈ statusEvents c r p v, isReport e = true := by
  intro e he
  simp only [statusEvents, List.mem_append] at he
  rcases he with ((he | he) | he) | he <;> split at he <;> simp at he <;> subst he <;> rfl

end Sys2Proof.Machine
end

