-- ==== Sys2Proof/Laws/Validator.lean ====
section
/-! SUPPORT. What FEED can do, said once: the verdict on a byte that accepts no frame, and the acceptance of one. -/

namespace Sys2Proof.Machine

/-- A status report has its response identifier and its opcode. -/
theorem isStatus_iff {f : Frame} :
    isStatus f = true ↔
      (byteAt f 3 = 0x60#8 ∨ byteAt f 3 = 0x61#8 ∨ byteAt f 3 = 0x62#8) ∧ byteAt f 4 = 0x07#8 := by
  simp [isStatus, or_assoc]

theorem shortStatus_iff {f : Frame} : shortStatus f = true ↔ isStatus f = true ∧ f.length < 13 := by
  simp [shortStatus]

@[simp] theorem acceptedFrames_nil (m : List Byte) : acceptedFrames m [] = [] := rfl

@[simp] theorem acceptedFrames_cons (m : List Byte) (b : Byte) (rest : List Byte) :
    acceptedFrames m (b :: rest) = (acceptedBy m b).toList ++ acceptedFrames (nextBuffer m b) rest := rfl

@[simp] theorem receiveStops_nil (m : List Byte) : receiveStops m [] = false := rfl

@[simp] theorem receiveStops_cons (m : List Byte) (b : Byte) (rest : List Byte) :
    receiveStops m (b :: rest) = (feedStops m b || receiveStops (nextBuffer m b) rest) := by
  simp [receiveStops, feedStops]

/-- A short status report is a fault in INTERPRET. -/
theorem interpretFrame_short {f : Frame} (h : 8 ≤ f.length) (hs : shortStatus f = true) (s : State) :
    interpretFrame f s = .fault .interpShortFrame := by
  obtain ⟨⟨h3, h4⟩, hl⟩ := (shortStatus_iff.trans (and_congr_left fun _ => isStatus_iff)).mp hs
  have hr : relevant (byteAt f 3) (byteAt f 4) = true := by
    simp only [relevant, Bool.or_eq_true, beq_iff_eq]
    tauto
  rw [interpretFrame, withFrameByte_some _ (getElem?_of_byteAt (by omega)),
    withFrameByte_some _ (getElem?_of_byteAt (by omega))]
  rw [h4] at hr ⊢
  simp [hr, statusReport_short s hl]

/-- What INTERPRET does with any other frame of accepted length: new values for some observables, all of them
monitored, of a status report only, and reports; for one configuration the same in every state. -/
theorem interpretFrame_effect {f : Frame} (h : 8 ≤ f.length) (hs : shortStatus f = false) (c : Params) :
    ∃ (o1 : Option Bool) (o2 o3 : Option Word16) (evs : List Event),
      (∀ e ∈ evs, isReport e = true) ∧ (c.monRun = false → o1 = none) ∧ (c.monPower = false → o2 = none) ∧
      (c.monSpeed = false → o3 = none) ∧ (isStatus f = false → o1 = none ∧ o2 = none ∧ o3 = none) ∧
      ∀ s : State, s.cfg = c → interpretFrame f s = .next
        { s with obsRunning := o1.orElse fun _ => s.obsRunning, obsPower := o2.orElse fun _ => s.obsPower,
                 obsSpeed := o3.orElse fun _ => s.obsSpeed, out := s.out ++ evs } := by
  rcases interpretFrame_cases h with hn | ⟨k, d, hk, hn⟩ | ⟨h4, h3, hn⟩
  · exact ⟨none, none, none, [], by simp, by simp, by simp, by simp, by simp, fun s _ => by simp [hn]⟩
  · exact ⟨none, none, none, [.diag .info k d], by simp [isReport, hk], by simp, by simp, by simp, by simp,
      fun s _ => by simp [hn, State.emit]⟩
  · have hi : isStatus f = true := isStatus_iff.mpr ⟨by tauto, h4⟩
    have hl : 13 ≤ f.length := by
      by_contra hlt
      simp [shortStatus_iff.mpr ⟨hi, by omega⟩] at hs
    refine ⟨if c.monRun ∧ (byteAt f 6).toNat ≤ 1 then some (decide (byteAt f 6 = 1#8)) else none,
      if c.monPower then some (be16 (byteAt f 9) (byteAt f 10)) else none,
      if c.monSpeed then some (be16 (byteAt f 11) (byteAt f 12)) else none,
      statusEvents c (byteAt f 6) (be16 (byteAt f 9) (byteAt f 10)) (be16 (byteAt f 11) (byteAt f 12)),
      statusEvents_isReport c _ _ _, by simp +contextual, by simp +contextual, by simp +contextual, by simp [hi], ?_⟩
    rintro s rfl
    rw [hn, statusReport_long s hl]
    congr 2 <;> split <;> rfl

/-- The events of a FEED that accepts no frame (R122 to R129). -/
def verdict (m : List Byte) (b : Byte) : List Event :=
  if nextBuffer m b ≠ [] then [.result .incomplete]
  else if m.length = 0 then [.result (.rejected .hdr0)]
  else if m.length = 1 then [.result (.rejected .hdr1)]
  else if m.length = 2 then [.result (.rejected .hdr2)]
  else if m.length = 3 then [.result (.rejected .hdr3)]
  else
    [.diag .warn .cksumMismatch
      (.sums (calcSum (m ++ [b]) (byteAt m 8).toNat) (recvSum (m ++ [b]) (byteAt m 8).toNat)),
     .result (.rejected .cksum)]

theorem acceptedBy_some {m : List Byte} {b : Byte} {f : Frame} (h : acceptedBy m b = some f) :
    9 ≤ m.length ∧ (byteAt m 8).toNat + 11 ≤ m.length + 1 ∧
      calcSum (m ++ [b]) (byteAt m 8).toNat = recvSum (m ++ [b]) (byteAt m 8).toNat ∧
      f = slice 3 ((byteAt m 8).toNat + 11) (m ++ [b]) := by
  simp only [acceptedBy, Option.ite_none_right_eq_some, List.length_append, List.length_singleton] at h
  obtain ⟨⟨h1, h2, h3⟩, h4⟩ := h
  exact ⟨h1, h2, h3, (Option.some.inj h4).symm⟩

theorem acceptedBy_length {m : List Byte} {b : Byte} {f : Frame} (h : acceptedBy m b = some f) : 8 ≤ f.length := by
  obtain ⟨_, h2, _, rfl⟩ := acceptedBy_some h
  simp
  omega

theorem nextBuffer_of_accepted {m : List Byte} {b : Byte} {f : Frame} (h : acceptedBy m b = some f) :
    nextBuffer m b = [] := by
  obtain ⟨h1, h2, _, _⟩ := acceptedBy_some h
  unfold nextBuffer
  rw [if_neg (by omega), if_neg (by omega), if_neg (by omega), if_neg (by omega), if_neg (by omega),
    if_neg (by omega)]

/-- A whole candidate whose sums agree is accepted (R130). -/
theorem judgeWhole_of_eq {l : Nat} {s : State} {m : List Byte} (hm : s.rxBuf = m) (h : calcSum m l = recvSum m l) :
    judgeWhole l s = accept (slice 3 (l + Config.frameOverhead) m) s := by
  subst hm
  exact if_pos h

/-- A whole candidate whose sums differ is rejected, the two sums reported first (R129). -/
theorem judgeWhole_of_ne {l : Nat} {s : State} {m : List Byte} (hm : s.rxBuf = m) (h : calcSum m l ≠ recvSum m l) :
    judgeWhole l s =
      .next (reject .cksum (s.emit (.diag .warn .cksumMismatch (.sums (calcSum m l) (recvSum m l))))) := by
  subst hm
  exact if_neg h

/-- FEED on a byte that accepts no frame: the buffer of the state-machine view, the verdict, nothing else. -/
theorem feedByte_of_none {b : Byte} {s : State} (h : acceptedBy s.rxBuf b = none) :
    feedByte b s = .next { s with rxBuf := nextBuffer s.rxBuf b, out := s.out ++ verdict s.rxBuf b } := by
  have hne : s.rxBuf ++ [b] ≠ [] := by simp
  unfold feedByte judge
  simp only [State.withRx_rxBuf, Memory.append, List.length_append, List.length_singleton, Nat.add_sub_cancel]
  by_cases p0 : s.rxBuf.length = 0
  · rw [if_pos p0]
    by_cases hb : b = 0xFF#8 <;>
      simp [headerByte, reject, incomplete, nextBuffer, verdict, p0, hb, Memory.clear, State.withRx, State.emit]
  rw [if_neg p0]
  by_cases p1 : s.rxBuf.length = 1
  · rw [if_pos p1]
    by_cases hb : b = 0x00#8 <;>
      simp [headerByte, reject, incomplete, nextBuffer, verdict, p1, hb, Memory.clear, State.withRx, State.emit]
  rw [if_neg p1]
  by_cases p2 : s.rxBuf.length = 2
  · rw [if_pos p2]
    by_cases hb : b = 0xFF#8 <;>
      simp [headerByte, reject, incomplete, nextBuffer, verdict, p2, hb, Memory.clear, State.withRx, State.emit]
  rw [if_neg p2]
  by_cases p3 : s.rxBuf.length = 3
  · rw [if_pos p3]
    by_cases hb : b = 0xA5#8 <;>
      simp [headerByte, reject, incomplete, nextBuffer, verdict, p3, hb, Memory.clear, State.withRx, State.emit]
  rw [if_neg p3]
  by_cases p8 : s.rxBuf.length ≤ Config.lenPos
  · rw [if_pos p8]
    have p8' : s.rxBuf.length ≤ 8 := p8
    simp [incomplete, nextBuffer, verdict, p0, p1, p2, p3, p8', State.withRx, State.emit]
  rw [if_neg p8]
  have p8' : ¬ s.rxBuf.length ≤ 8 := p8
  have h8 : Memory.read (s.rxBuf ++ [b]) Config.lenPos = byteAt s.rxBuf 8 :=
    byteAt_append_left (by simp only [Config.lenPos]; omega)
  rw [h8]
  by_cases hl : s.rxBuf.length + 1 < (byteAt s.rxBuf 8).toNat + Config.frameOverhead
  · rw [if_pos hl]
    have hl' : s.rxBuf.length + 1 < (byteAt s.rxBuf 8).toNat + 11 := hl
    simp [incomplete, nextBuffer, verdict, p0, p1, p2, p3, p8', hl', State.withRx, State.emit]
  · rw [if_neg hl]
    have hl' : ¬ s.rxBuf.length + 1 < (byteAt s.rxBuf 8).toNat + 11 := hl
    have hs : calcSum (s.rxBuf ++ [b]) (byteAt s.rxBuf 8).toNat ≠ recvSum (s.rxBuf ++ [b]) (byteAt s.rxBuf 8).toNat := by
      intro e
      have : acceptedBy s.rxBuf b = some (slice 3 ((byteAt s.rxBuf 8).toNat + 11) (s.rxBuf ++ [b])) := by
        unfold acceptedBy
        exact if_pos ⟨by omega, by simp; omega, e⟩
      simp [this] at h
    rw [judgeWhole_of_ne (State.withRx_rxBuf _ _) hs]
    simp [reject, nextBuffer, verdict, p0, p1, p2, p3, p8', hl', Memory.clear, State.withRx, State.emit]

/-- FEED on the byte that completes a valid frame is acceptance of that frame. -/
theorem feedByte_of_some {b : Byte} {s : State} {f : Frame} (h : acceptedBy s.rxBuf b = some f) :
    feedByte b s = accept f { s with rxBuf := s.rxBuf ++ [b] } := by
  obtain ⟨h1, h2, h3, rfl⟩ := acceptedBy_some h
  have h8 : Memory.read (s.rxBuf ++ [b]) Config.lenPos = byteAt s.rxBuf 8 :=
    byteAt_append_left (by simp only [Config.lenPos]; omega)
  unfold feedByte judge
  simp only [State.withRx_rxBuf, Memory.append, List.length_append, List.length_singleton, Nat.add_sub_cancel, h8]
  rw [if_neg (by omega), if_neg (by omega), if_neg (by omega), if_neg (by omega),
    if_neg (by simp only [Config.lenPos]; omega), if_neg (by simp only [Config.frameOverhead]; omega)]
  rw [judgeWhole_of_eq (State.withRx_rxBuf _ _) h3]
  rfl

theorem feedStops_iff {m : List Byte} {b : Byte} :
    feedStops m b = true ↔ ∃ f, acceptedBy m b = some f ∧ shortStatus f = true := by
  simp [feedStops]

/-- FEED on a byte that completes a short status report. -/
theorem feedByte_stops {b : Byte} {s : State} (h : feedStops s.rxBuf b = true) :
    feedByte b s = .fault .interpShortFrame := by
  obtain ⟨f, ha, hs⟩ := feedStops_iff.mp h
  rw [feedByte_of_some ha, accept, interpretFrame_short (acceptedBy_length ha) hs]
  rfl

/-- Everything FEED can do when it does not stop: for one configuration and buffer the same in every state. The
observables change only on an accepted status report and only where monitored; the new events are reports, diagnostics and one
result, which comes last and is Incomplete exactly when the buffer keeps the byte. -/
theorem feedByte_effect (c : Params) {m : List Byte} {b : Byte} (h : feedStops m b = false) :
    ∃ (o1 : Option Bool) (o2 o3 : Option Word16) (evs : List Event) (r : FeedResult),
      (∀ e ∈ evs, isReport e = true ∨ ∃ x y, e = .diag .warn .cksumMismatch (.sums x y)) ∧
      (r = .incomplete ↔ nextBuffer m b ≠ []) ∧ (nextBuffer m b ≠ [] → nextBuffer m b = m ++ [b]) ∧
      (c.monRun = false → o1 = none) ∧ (c.monPower = false → o2 = none) ∧ (c.monSpeed = false → o3 = none) ∧
      ((acceptedBy m b).toList.filter isStatus = [] → o1 = none ∧ o2 = none ∧ o3 = none) ∧
      ∀ s : State, s.cfg = c → s.rxBuf = m → feedByte b s = .next
        { s with rxBuf := nextBuffer m b, obsRunning := o1.orElse fun _ => s.obsRunning,
                 obsPower := o2.orElse fun _ => s.obsPower, obsSpeed := o3.orElse fun _ => s.obsSpeed,
                 out := s.out ++ evs ++ [.result r] } := by
  have keeps : nextBuffer m b ≠ [] → nextBuffer m b = m ++ [b] := by
    unfold nextBuffer
    split_ifs <;> simp
  rcases ha : acceptedBy m b with _ | f
  · have key (evs : List Event) (r : FeedResult) (e : verdict m b = evs ++ [.result r]) (s : State) (hm : s.rxBuf = m) :
        feedByte b s = .next
          { s with rxBuf := nextBuffer m b, obsRunning := (none : Option Bool).orElse fun _ => s.obsRunning,
                   obsPower := (none : Option Word16).orElse fun _ => s.obsPower,
                   obsSpeed := (none : Option Word16).orElse fun _ => s.obsSpeed,
                   out := s.out ++ evs ++ [.result r] } := by
      subst hm
      rw [feedByte_of_none ha, e]
      simp
    have last : ∃ (evs : List Event) (r : FeedResult), verdict m b = evs ++ [.result r] ∧
        (∀ e ∈ evs, isReport e = true ∨ ∃ x y, e = .diag .warn .cksumMismatch (.sums x y)) ∧
        (r = .incomplete ↔ nextBuffer m b ≠ []) := by
      unfold verdict
      by_cases hn : nextBuffer m b ≠ []
      · exact ⟨[], .incomplete, by simp [hn], by simp, by simp [hn]⟩
      · rw [if_neg hn]
        split
        · exact ⟨[], _, rfl, by simp, by simp [hn]⟩
        split
        · exact ⟨[], _, rfl, by simp, by simp [hn]⟩
        split
        · exact ⟨[], _, rfl, by simp, by simp [hn]⟩
        split
        · exact ⟨[], _, rfl, by simp, by simp [hn]⟩
        · exact ⟨[_], _, rfl, by simp, by simp [hn]⟩
    obtain ⟨evs, r, e, he, hr⟩ := last
    exact ⟨none, none, none, evs, r, he, hr, keeps, by simp, by simp, by simp, by simp, fun s _ hm => key evs r e s hm⟩
  · have hs : shortStatus f = false := by
      rcases hb : shortStatus f with _ | _
      · rfl
      · simp [feedStops_iff.mpr ⟨f, ha, hb⟩] at h
    obtain ⟨o1, o2, o3, evs, he, h1, h2, h3, h0, hi⟩ := interpretFrame_effect (acceptedBy_length ha) hs c
    refine ⟨o1, o2, o3, evs ++ [.diag .info .frameRx (.bytes f)], .accepted f, ?_, ?_, keeps, h1, h2, h3, by simpa using h0, ?_⟩
    · intro e hm
      rcases List.mem_append.mp hm with hm | hm
      · exact .inl (he e hm)
      · simp at hm
        subst hm
        exact .inl rfl
    · simp [nextBuffer_of_accepted ha]
    · intro s hc hm
      subst hm
      rw [feedByte_of_some ha, accept, hi _ (by exact hc), nextBuffer_of_accepted ha]
      simp [Memory.clear, State.withRx, State.emit]

end Sys2Proof.Machine
end

