-- ==== Sys2Proof/Laws/Trace.lean ====
section
/-! SUPPORT. What a trace of output events shows when events are added to it. -/

namespace Sys2Proof.Machine

@[simp] theorem writes_append (a b : List Event) : writes (a ++ b) = writes a ++ writes b := by
  induction a using writes.induct <;> simp_all [writes]

@[simp] theorem malformedCount_append (a b : List Event) :
    malformedCount (a ++ b) = malformedCount a + malformedCount b := List.countP_append

theorem flushPaired_append {a b : List Event} (ha : flushPaired a = true) (hb : flushPaired b = true) :
    flushPaired (a ++ b) = true := by
  induction a using flushPaired.induct <;> simp_all [flushPaired]

/-- The events the receive side can emit: all but the transmission pair and the self-check's warning. -/
def fromReceiver : Event → Bool
  | .txFlush => false
  | .txWrite _ => false
  | .diag _ .malformedOutbound _ => false
  | _ => true

theorem fromReceiver_of_isReport {e : Event} (h : isReport e = true) : fromReceiver e = true := by
  cases e with
  | diag sev code data => cases sev <;> cases code <;> simp_all [isReport, fromReceiver]
  | _ => simp_all [isReport, fromReceiver]

theorem writes_of_fromReceiver {evs : List Event} (h : ∀ e ∈ evs, fromReceiver e = true) : writes evs = [] := by
  induction evs using writes.induct <;> simp_all [writes, fromReceiver]

theorem flushPaired_of_fromReceiver {evs : List Event} (h : ∀ e ∈ evs, fromReceiver e = true) :
    flushPaired evs = true := by
  induction evs using flushPaired.induct <;> simp_all [flushPaired, fromReceiver]

theorem malformedCount_of_fromReceiver {evs : List Event} (h : ∀ e ∈ evs, fromReceiver e = true) :
    malformedCount evs = 0 := by
  rw [malformedCount, List.countP_eq_zero]
  intro e he
  have := h e he
  cases e with
  | diag sev code data => cases code <;> simp_all [fromReceiver]
  | _ => simp

end Sys2Proof.Machine
end

