-- ==== Sys2Proof/Laws/Scheduler.lean ====
section
/-! SUPPORT. What reception of several bytes, the scheduling step and runs of operations can do. -/

namespace Sys2Proof.Machine

/-! ### SCHED -/

/-- With an empty queue SCHED may open the gate and does nothing else (R155). -/
theorem schedule_empty {s : State} (t : Nat) (h : s.txq = []) :
    schedule t s = { s with schedState := flagAfterGate s.cfg.clkW t s.lastActivity s.schedState } := by
  unfold schedule releaseOne openGate
  simp only [State.withSched]
  split <;> simp_all

/-- While the flag stays BUSY nothing changes (R153). -/
theorem schedule_busy {s : State} {t : Nat}
    (h : flagAfterGate s.cfg.clkW t s.lastActivity s.schedState = .busy) : schedule t s = s := by
  have hb : s.schedState = .busy := by
    unfold flagAfterGate at h
    split at h <;> simp_all
  unfold schedule releaseOne openGate
  simp only [State.withSched, h]
  cases s
  simp_all

/-- In QUIET the front frame leaves (R154). -/
theorem schedule_release {s : State} {t : Nat} {f : Frame} {rest : List Frame}
    (h : flagAfterGate s.cfg.clkW t s.lastActivity s.schedState = .quiet) (hq : s.txq = f :: rest) :
    schedule t s =
      { s with txq := rest, lastActivity := sample s.cfg.clkW t, schedState := .busy,
               out := s.out ++ [.txFlush, .txWrite f] } := by
  unfold schedule releaseOne openGate
  simp [State.withSched, h, hq, transmit, State.emit, State.withTxq, State.stampBusy]

theorem flagAfterGate_cases (w t t0 : Nat) (old : SchedState) :
    flagAfterGate w t t0 old = .quiet ∧ (old = .quiet ∨ gateOpen w t t0 = true) ∨
      flagAfterGate w t t0 old = .busy ∧ old = .busy ∧ gateOpen w t t0 = false := by
  unfold flagAfterGate
  cases h : gateOpen w t t0 <;> cases old <;> simp

/-- The gate, in the integers (R9, R153). -/
theorem gateOpen_iff {w t t0 : Nat} :
    gateOpen w t t0 = true ↔ (100 : Int) < ((t : Int) - t0) % (2 : Int) ^ w := by
  rw [gateOpen, decide_eq_true_eq, ← elapsed_eq_int]
  simp [Config.quietMs]

/-- SCHED either transmits the front frame or leaves all but the flag. -/
theorem schedule_cases (t : Nat) (s : State) :
    (∃ q, schedule t s = { s with schedState := q } ∧
      (s.txq = [] ∧ q = flagAfterGate s.cfg.clkW t s.lastActivity s.schedState ∨
        q = .busy ∧ s.schedState = .busy ∧ gateOpen s.cfg.clkW t s.lastActivity = false)) ∨
    (∃ f rest, s.txq = f :: rest ∧
      (s.schedState = .quiet ∨ gateOpen s.cfg.clkW t s.lastActivity = true) ∧
      schedule t s =
        { s with txq := rest, lastActivity := sample s.cfg.clkW t, schedState := .busy,
                 out := s.out ++ [.txFlush, .txWrite f] }) := by
  rcases hq : s.txq with _ | ⟨f, rest⟩
  · exact .inl ⟨_, by rw [schedule_empty t hq, hq], .inl ⟨rfl, rfl⟩⟩
  · rcases flagAfterGate_cases s.cfg.clkW t s.lastActivity s.schedState with ⟨h, ho⟩ | ⟨h, hb, hg⟩
    · exact .inr ⟨f, rest, rfl, ho, schedule_release h hq⟩
    · refine .inl ⟨.busy, ?_, .inr ⟨rfl, hb, hg⟩⟩
      rw [schedule_busy h]
      cases s
      simp_all

/-! ### Reception -/

/-- Everything the arrival of one byte can do when it does not stop; for one configuration and buffer the same in
every state. -/
theorem receiveByte_effect (c : Params) {m : List Byte} {b : Byte} (t : Nat) (h : feedStops m b = false) :
    ∃ (o1 : Option Bool) (o2 o3 : Option Word16) (evs : List Event), (∀ e ∈ evs, fromReceiver e = true) ∧
      (c.monRun = false → o1 = none) ∧ (c.monPower = false → o2 = none) ∧ (c.monSpeed = false → o3 = none) ∧
      ((acceptedBy m b).toList.filter isStatus = [] → o1 = none ∧ o2 = none ∧ o3 = none) ∧
      ∀ s : State, s.cfg = c → s.rxBuf = m → receiveByte b t s = .next
        { s with rxBuf := nextBuffer m b, lastActivity := sample c.clkW t, schedState := .busy,
                 obsRunning := o1.orElse fun _ => s.obsRunning, obsPower := o2.orElse fun _ => s.obsPower,
                 obsSpeed := o3.orElse fun _ => s.obsSpeed, out := s.out ++ evs } := by
  obtain ⟨o1, o2, o3, evs, r, he, _, _, h1, h2, h3, h0, hf⟩ := feedByte_effect c h
  refine ⟨o1, o2, o3, evs ++ [.result r], ?_, h1, h2, h3, h0, ?_⟩
  · intro e hm
    rcases List.mem_append.mp hm with hm | hm
    · rcases he e hm with hr | ⟨x, y, rfl⟩
      · exact fromReceiver_of_isReport hr
      · rfl
    · simp at hm
      subst hm
      rfl
  · rintro s rfl rfl
    rw [receiveByte, hf (s.stampBusy t) rfl rfl]
    simp [State.stampBusy]

theorem receiveByte_stops {s : State} {b : Byte} (t : Nat) (h : feedStops s.rxBuf b = true) :
    receiveByte b t s = .fault .interpShortFrame := feedByte_stops h

/-- Everything the arrival of several bytes can do when none of them completes a short status report. -/
theorem receiveAll_effect (c : Params) (l : List (Byte × Nat)) {m : List Byte}
    (h : receiveStops m (l.map (·.1)) = false) :
    ∃ (o1 : Option Bool) (o2 o3 : Option Word16) (evs : List Event), (∀ e ∈ evs, fromReceiver e = true) ∧
      (c.monRun = false → o1 = none) ∧ (c.monPower = false → o2 = none) ∧ (c.monSpeed = false → o3 = none) ∧
      ((acceptedFrames m (l.map (·.1))).filter isStatus = [] → o1 = none ∧ o2 = none ∧ o3 = none) ∧
      ∀ s : State, s.cfg = c → s.rxBuf = m → receiveAll l s = .next
        { s with rxBuf := bufferAfter m (l.map (·.1)),
                 lastActivity := ((l.map fun x => sample c.clkW x.2).getLast?).getD s.lastActivity,
                 schedState := if l = [] then s.schedState else .busy,
                 obsRunning := o1.orElse fun _ => s.obsRunning, obsPower := o2.orElse fun _ => s.obsPower,
                 obsSpeed := o3.orElse fun _ => s.obsSpeed, out := s.out ++ evs } := by
  induction l generalizing m with
  | nil =>
    refine ⟨none, none, none, [], by simp, by simp, by simp, by simp, by simp, ?_⟩
    rintro s rfl rfl
    simp [receiveAll, bufferAfter]
  | cons x rest ih =>
    obtain ⟨b, t⟩ := x
    simp only [List.map_cons, receiveStops_cons, Bool.or_eq_false_iff] at h
    obtain ⟨p1, p2, p3, ev1, he1, a1, a2, a3, a0, hr⟩ := receiveByte_effect c t h.1
    obtain ⟨q1, q2, q3, ev2, he2, b1, b2, b3, b0, hs⟩ := ih h.2
    refine ⟨q1.orElse fun _ => p1, q2.orElse fun _ => p2, q3.orElse fun _ => p3, ev1 ++ ev2, ?_, ?_, ?_, ?_, ?_, ?_⟩
    · intro e hm
      rcases List.mem_append.mp hm with hm | hm
      · exact he1 e hm
      · exact he2 e hm
    · intro hc
      simp [a1 hc, b1 hc]
    · intro hc
      simp [a2 hc, b2 hc]
    · intro hc
      simp [a3 hc, b3 hc]
    · intro hn
      simp only [List.map_cons, acceptedFrames_cons, List.filter_append, List.append_eq_nil_iff] at hn
      obtain ⟨rfl, rfl, rfl⟩ := a0 hn.1
      obtain ⟨rfl, rfl, rfl⟩ := b0 hn.2
      simp
    · rintro s rfl rfl
      rw [receiveAll, hr s rfl rfl, andThen_next, hs]
      rotate_left
      · rfl
      · rfl
      cases rest <;> cases q1 <;> cases q2 <;> cases q3 <;> simp [bufferAfter, List.getLast?_cons]

theorem receiveAll_stops (l : List (Byte × Nat)) {s : State} (h : receiveStops s.rxBuf (l.map (·.1)) = true) :
    receiveAll l s = .fault .interpShortFrame := by
  induction l generalizing s with
  | nil => simp at h
  | cons x rest ih =>
    obtain ⟨b, t⟩ := x
    simp only [List.map_cons, receiveStops_cons, Bool.or_eq_true] at h
    rcases hf : feedStops s.rxBuf b with _ | _
    · obtain ⟨o1, o2, o3, evs, _, _, _, _, _, hr⟩ := receiveByte_effect s.cfg t hf
      rw [receiveAll, hr s rfl rfl, andThen_next]
      exact ih (h.resolve_left (by simp [hf]))
    · rw [receiveAll, receiveByte_stops t hf, andThen_fault]

theorem receiveAll_append (a b : List (Byte × Nat)) (s : State) :
    receiveAll (a ++ b) s = andThen (receiveAll a s) (receiveAll b) := by
  induction a generalizing s with
  | nil => rfl
  | cons x rest ih => simp only [List.cons_append, receiveAll, andThen_assoc]; congr 1; funext u; exact ih u

/-! ### Runs -/

@[simp] theorem runOps_nil (s : State) : runOps [] s = .next s := rfl

theorem runOps_cons (i : Instr) (rest : List Instr) (s : State) :
    runOps (i :: rest) s = andThen (exec i s) (runOps rest) := rfl

theorem runOps_append (a b : List Instr) (s : State) : runOps (a ++ b) s = andThen (runOps a s) (runOps b) := by
  induction a generalizing s with
  | nil => rfl
  | cons x rest ih => simp only [List.cons_append, runOps, andThen_assoc]; congr 1; funext u; exact ih u

/-- RXBYTE after RXBYTE as a run of operations. -/
theorem runOps_rxBytes (l : List (Byte × Nat)) (s : State) :
    runOps (l.map fun x => .rxByte x.1 x.2) s = receiveAll l s := by
  induction l generalizing s with
  | nil => rfl
  | cons x rest ih => simp only [List.map_cons, runOps, receiveAll]; congr 1; funext u; exact ih u

/-- A property that every operation of a run keeps holds at its end. -/
theorem runOps_keeps {P : State → Prop} {ops : List Instr} {s t : State}
    (step_keeps : ∀ i ∈ ops, ∀ u v, P u → exec i u = .next v → P v) (h : P s) (hr : runOps ops s = .next t) : P t := by
  induction ops generalizing s with
  | nil => cases hr; exact h
  | cons i rest ih =>
    obtain ⟨u, hu, hk⟩ := andThen_eq_next.mp hr
    exact ih (fun j hj => step_keeps j (List.mem_cons_of_mem _ hj)) (step_keeps i List.mem_cons_self s u h hu) hk

end Sys2Proof.Machine
end

