-- ==== Sys2Proof/Laws/Encoder.lean ====
section
/-! SUPPORT. What the Command Encoder can do: a built frame passes its self-check, so a command is an ENQ of its
frame. -/

namespace Sys2Proof.Machine

/-- A slice that spans the middle part of a list is that part. -/
theorem slice_middle (a b c : List Byte) : slice a.length (a.length + b.length) (a ++ b ++ c) = b := by
  simp [slice]

theorem selfCheck_encodeFrame (p : List Byte) : selfCheck (encodeFrame p) = true := by
  have hs : slice 3 ((encodeFrame p).length - 2) (encodeFrame p) = p := by
    have e : (encodeFrame p).length - 2 = Config.preamble.length + p.length := by
      simp only [encodeFrame_length, Config.preamble, List.length_cons, List.length_nil]
      omega
    rw [e]
    exact slice_middle Config.preamble p (trailer (checksum p))
  have h1 : byteAt (encodeFrame p) ((encodeFrame p).length - 2) = hi (checksum p) := by
    rw [encodeFrame_length, encodeFrame, byteAt_append_right (by simp [Config.preamble])]
    simp [Config.preamble, byteAt, trailer]
  have h2 : byteAt (encodeFrame p) ((encodeFrame p).length - 1) = lo (checksum p) := by
    rw [encodeFrame_length, encodeFrame, byteAt_append_right (by simp [Config.preamble])]
    simp [Config.preamble, byteAt, trailer]
  rw [selfCheck, hs, h1, h2, be16_hi_lo, beq_self_eq_true]

/-- A command is an ENQ of the frame it builds (R183). -/
theorem command_eq (p : List Byte) (s : State) : command p s = .next (enqueue (encodeFrame p) s) := by
  rw [command, queueChecked, if_pos (selfCheck_encodeFrame p)]

theorem exec_command {i : Instr} {f : Frame} (h : commandFrame i = some f) (s : State) :
    exec i s = .next (enqueue f s) := by
  cases i <;> simp only [commandFrame, Option.some.injEq, reduceCtorEq] at h <;> subst h <;> exact command_eq _ s

/-- ENQ queues the frame, or on a full finite queue warns and drops it; nothing else. -/
theorem enqueue_cases (f : Frame) (s : State) :
    s.txqFull = false ∧ enqueue f s = { s with txq := s.txq ++ [f] } ∨
      s.txqFull = true ∧ enqueue f s = { s with out := s.out ++ [.diag .warn .txqOverflow (.bytes f)] } := by
  rcases h : s.txqFull with _ | _
  · exact .inl ⟨rfl, enqueue_of_room h⟩
  · exact .inr ⟨rfl, enqueue_of_full h⟩

theorem txqFull_eq_false_iff {s : State} :
    s.txqFull = false ↔ ∀ d, s.cfg.txqDepth = some d → s.txq.length < d := by
  unfold State.txqFull
  split <;> simp_all

end Sys2Proof.Machine
end

