-- ==== Sys2Proof/Laws/Memory.lean ====
section
/-! SUPPORT. The Receive Buffer: every operation over it keeps the form Memory.wf, and the form bounds its length. -/

namespace Sys2Proof.Machine

theorem Memory.clear_wf : Memory.wf Memory.clear = true := rfl

theorem State.reset_wf : Memory.wf State.reset.rxBuf = true := rfl

theorem Memory.wf_iff {m : List Byte} :
    Memory.wf m = true ↔ m.take 4 = Config.linkHeader.take m.length ∧
      (m.length ≤ 8 ∨ m.length < (byteAt m 8).toNat + 11) := by
  simp only [Memory.wf, Bool.and_eq_true, Bool.or_eq_true, decide_eq_true_eq]
  rfl

theorem Memory.wf_length {m : List Byte} (h : Memory.wf m = true) : m.length ≤ 265 := by
  have := (byteAt m 8).isLt
  rcases (Memory.wf_iff.mp h).2 with h | h <;> omega

/-- FEED's append keeps the form wherever the buffer is kept (R122 to R127), and its clear gives it back (R133). -/
theorem nextBuffer_wf {m : List Byte} (b : Byte) (h : Memory.wf m = true) : Memory.wf (nextBuffer m b) = true := by
  obtain ⟨hp, hl⟩ := Memory.wf_iff.mp h
  by_cases h4 : m.length < 4
  · rcases m with _ | ⟨x, _ | ⟨y, _ | ⟨z, _ | ⟨w, rest⟩⟩⟩⟩
    · by_cases hb : b = 0xFF#8 <;> simp [nextBuffer, hb] <;> decide
    · by_cases hb : b = 0x00#8 <;> simp_all [nextBuffer, Config.linkHeader] <;> decide
    · by_cases hb : b = 0xFF#8 <;> simp_all [nextBuffer, Config.linkHeader] <;> decide
    · by_cases hb : b = 0xA5#8 <;> simp_all [nextBuffer, Config.linkHeader] <;> decide
    · simp at h4
      omega
  · have h4' : 4 ≤ m.length := by omega
    have p : (m ++ [b]).take 4 = Config.linkHeader.take (m ++ [b]).length := by
      rw [List.take_append_of_le_length h4', hp, List.take_of_length_le (by simpa [Config.linkHeader] using h4'),
        List.take_of_length_le (by simp [Config.linkHeader]; omega)]
    unfold nextBuffer
    rw [if_neg (by omega), if_neg (by omega), if_neg (by omega), if_neg (by omega)]
    split
    · refine Memory.wf_iff.mpr ⟨p, ?_⟩
      simp
      omega
    · rename_i h8
      split
      · rename_i hlt
        refine Memory.wf_iff.mpr ⟨p, .inr ?_⟩
        rw [byteAt_append_left (by omega)]
        simpa using hlt
      · rfl

theorem bufferAfter_wf (bytes : List Byte) {m : List Byte} (h : Memory.wf m = true) :
    Memory.wf (bufferAfter m bytes) = true := by
  induction bytes generalizing m with
  | nil => exact h
  | cons b rest ih => exact ih (nextBuffer_wf b h)

end Sys2Proof.Machine
end

