-- ==== Sys2Proof/Laws/Exec.lean ====
section
/-! SUPPORT. Everything an operation can do when it completes, over all operations: a reset, a reception with perhaps a
scheduling step after it, an enqueue, or a returned frame. -/

namespace Sys2Proof.Machine

/-- What a reception leaves: a new buffer, perhaps a new stamp with BUSY, new values of monitored observables only, and
events of the receive side. `times` are the clock samples of the bytes, `silent` says that no observable may change. -/
structure Receives (times : List Nat) (silent : Bool) (s t : State) : Prop where
  cfg : t.cfg = s.cfg
  txq : t.txq = s.txq
  ret : t.ret = s.ret
  inputs : t.inputs = s.inputs
  out : ∃ evs, t.out = s.out ++ evs ∧ ∀ e ∈ evs, fromReceiver e = true
  timer : t.lastActivity = s.lastActivity ∧ t.schedState = s.schedState ∨
    ∃ x ∈ times, t.lastActivity = sample s.cfg.clkW x ∧ t.schedState = .busy
  buffer : Memory.wf s.rxBuf = true → Memory.wf t.rxBuf = true
  monRun : s.cfg.monRun = false → t.obsRunning = s.obsRunning
  monPower : s.cfg.monPower = false → t.obsPower = s.obsPower
  monSpeed : s.cfg.monSpeed = false → t.obsSpeed = s.obsSpeed
  observables : silent = true → t.obsRunning = s.obsRunning ∧ t.obsPower = s.obsPower ∧ t.obsSpeed = s.obsSpeed

theorem receiveAll_receives {l : List (Byte × Nat)} {s t : State} (h : receiveAll l s = .next t) :
    Receives (l.map (·.2)) ((acceptedFrames s.rxBuf (l.map (·.1))).filter isStatus).isEmpty s t := by
  rcases hs : receiveStops s.rxBuf (l.map (·.1)) with _ | _
  · obtain ⟨o1, o2, o3, evs, he, h1, h2, h3, h0, hr⟩ := receiveAll_effect s.cfg l hs
    rw [hr s rfl rfl] at h
    obtain rfl := Host.Outcome.next.inj h
    refine ⟨rfl, rfl, rfl, rfl, ⟨evs, rfl, he⟩, ?_, bufferAfter_wf _, ?_, ?_, ?_, ?_⟩
    · rcases List.eq_nil_or_concat l with rfl | ⟨a, x, rfl⟩
      · exact .inl ⟨rfl, rfl⟩
      · exact .inr ⟨x.2, by simp, by simp⟩
    · intro hc
      simp [h1 hc]
    · intro hc
      simp [h2 hc]
    · intro hc
      simp [h3 hc]
    · intro hl
      obtain ⟨rfl, rfl, rfl⟩ := h0 (List.isEmpty_iff.mp hl)
      simp
  · simp [receiveAll_stops l hs] at h

/-- Bytes that arrive with one sample. -/
theorem receiveFrame_receives {bytes : List Byte} {x : Nat} {s t : State}
    (h : receiveAll (bytes.map fun b => (b, x)) s = .next t) :
    Receives [x] ((acceptedFrames s.rxBuf bytes).filter isStatus).isEmpty s t := by
  have r := receiveAll_receives h
  rw [List.map_map, List.map_map, show ((fun x => x.1) ∘ fun b : Byte => (b, x)) = id from rfl, List.map_id] at r
  refine { r with timer := ?_ }
  rcases r.timer with ht | ⟨y, hy, ht⟩
  · exact .inl ht
  · obtain ⟨_, _, rfl⟩ := List.mem_map.mp hy
    exact .inr ⟨x, by simp, ht⟩

theorem feedByte_receives {b : Byte} {s t : State} (h : feedByte b s = .next t) :
    Receives [] ((acceptedFrames s.rxBuf [b]).filter isStatus).isEmpty s t := by
  rcases hs : feedStops s.rxBuf b with _ | _
  · obtain ⟨o1, o2, o3, evs, r, he, _, _, h1, h2, h3, h0, hr⟩ := feedByte_effect s.cfg hs
    rw [hr s rfl rfl] at h
    obtain rfl := Host.Outcome.next.inj h
    refine ⟨rfl, rfl, rfl, rfl, ⟨evs ++ [.result r], by simp, ?_⟩, .inl ⟨rfl, rfl⟩, nextBuffer_wf b, ?_, ?_, ?_,
      ?_⟩
    · intro e hm
      rcases List.mem_append.mp hm with hm | hm
      · rcases he e hm with hi | ⟨x, y, rfl⟩
        · exact fromReceiver_of_isReport hi
        · rfl
      · simp at hm
        subst hm
        rfl
    · intro hc
      simp [h1 hc]
    · intro hc
      simp [h2 hc]
    · intro hc
      simp [h3 hc]
    · intro hl
      obtain ⟨rfl, rfl, rfl⟩ := h0 (by simpa using hl)
      simp
  · simp [feedByte_stops hs] at h

theorem emit_receives {s : State} {e : Event} (h : fromReceiver e = true) : Receives [] true s (s.emit e) :=
  ⟨rfl, rfl, rfl, rfl, ⟨[e], rfl, by simpa using h⟩, .inl ⟨rfl, rfl⟩, id, fun _ => rfl, fun _ => rfl, fun _ => rfl,
    fun _ => ⟨rfl, rfl, rfl⟩⟩

theorem Receives.refl (s : State) : Receives [] true s s :=
  ⟨rfl, rfl, rfl, rfl, ⟨[], by simp, by simp⟩, .inl ⟨rfl, rfl⟩, id, fun _ => rfl, fun _ => rfl, fun _ => rfl,
    fun _ => ⟨rfl, rfl, rfl⟩⟩

/-- A reception that may change no observable is one that may. -/
theorem Receives.weaken {times : List Nat} {s t : State} (b : Bool) (h : Receives times true s t) :
    Receives times b s t :=
  { h with observables := fun _ => h.observables rfl }

theorem extProg_receives {f : Frame} {s t : State} (h : extProg f s = .next t) : Receives [] true s t := by
  unfold extProg withFrameByte at h
  split at h
  · obtain rfl := Host.Outcome.next.inj h
    exact emit_receives rfl
  · cases h

theorem localProg_receives {f : Frame} {s t : State} (h : localProg f s = .next t) : Receives [] true s t := by
  unfold localProg withFrameByte at h
  split at h
  · obtain rfl := Host.Outcome.next.inj h
    exact emit_receives rfl
  · cases h

theorem localCtrl_receives {s t : State} (h : localCtrl s = .next t) : Receives [] true s t := by
  obtain rfl := Host.Outcome.next.inj h
  exact emit_receives rfl

theorem remoteCtrl_receives {s t : State} (h : remoteCtrl s = .next t) : Receives [] true s t := by
  obtain rfl := Host.Outcome.next.inj h
  exact emit_receives rfl

theorem statusReport_receives {f : Frame} {s t : State} (h : statusReport f s = .next t) :
    Receives [] false s t := by
  by_cases hl : f.length < 13
  · simp [statusReport_short s hl] at h
  · rw [statusReport_long s (by omega)] at h
    obtain rfl := Host.Outcome.next.inj h
    exact ⟨rfl, rfl, rfl, rfl, ⟨_, rfl, fun e he => fromReceiver_of_isReport (statusEvents_isReport _ _ _ _ e he)⟩,
      .inl ⟨rfl, rfl⟩, id, by simp +contextual, by simp +contextual, by simp +contextual, by simp⟩

theorem interpretFrame_receives {f : Frame} {s t : State} (h : interpretFrame f s = .next t) :
    Receives [] ([f].filter isStatus).isEmpty s t := by
  unfold interpretFrame withFrameByte at h
  split at h <;> [rename_i f3 h3; cases h]
  split at h <;> [rename_i f4 h4; cases h]
  beta_reduce at h
  split at h
  · obtain rfl := Host.Outcome.next.inj h
    exact (Receives.refl s).weaken _
  split at h
  · exact (extProg_receives h).weaken _
  split at h
  · unfold controlReport withFrameByte at h
    split at h <;> [skip; cases h]
    beta_reduce at h
    split at h
    · exact (localCtrl_receives h).weaken _
    split at h
    · exact (remoteCtrl_receives h).weaken _
    · obtain rfl := Host.Outcome.next.inj h
      exact (Receives.refl s).weaken _
  split at h
  · exact (localProg_receives h).weaken _
  split at h
  · rename_i hr _ _ _ h7
    have hs : isStatus f = true := by
      subst h7
      have e3 : byteAt f 3 = f3 := by simp [byteAt, List.getD, h3]
      have e4 : byteAt f 4 = 0x07#8 := by simp [byteAt, List.getD, h4]
      refine isStatus_iff.mpr ⟨?_, e4⟩
      have : relevant f3 0x07#8 = true := by simpa using hr
      simpa [relevant, e3, or_assoc] using this
    simpa [hs] using statusReport_receives h
  · obtain rfl := Host.Outcome.next.inj h
    exact (Receives.refl s).weaken _

/-- Everything an operation can do when it completes. -/
theorem exec_effect {i : Instr} {s t : State} (h : exec i s = .next t) :
    i = .reset ∧ t = s.clearRegisters ∨
    (i ≠ .reset ∧ enqueuedBy i = [] ∧ Receives (opTimes i) (statusReports s.rxBuf i).isEmpty s t) ∨
    (i ≠ .reset ∧ enqueuedBy i = [] ∧ ∃ times x u, (i = .sched x ∨ ∃ d, i = .tick d x) ∧
      opTimes i = times ++ [x] ∧ Receives times (statusReports s.rxBuf i).isEmpty s u ∧ t = schedule x u) ∨
    (i ≠ .reset ∧ opTimes i = [] ∧ ∃ f, enqueuedBy i = [f] ∧ t = enqueue f s) ∨
    (i ≠ .reset ∧ opTimes i = [] ∧ enqueuedBy i = [] ∧ ∃ f, t = s.withRet f) := by
  have cmd {f : Frame} (e : commandFrame i = some f) : t = enqueue f s := by
    rw [exec_command e s] at h
    exact (Host.Outcome.next.inj h).symm
  cases i with
  | reset => exact .inl ⟨rfl, (Host.Outcome.next.inj h).symm⟩
  | frame r0 r1 r2 r3 payload ck x =>
    exact .inr (.inl ⟨by simp, rfl, receiveFrame_receives h⟩)
  | feed b => exact .inr (.inl ⟨by simp, rfl, feedByte_receives h⟩)
  | rxByte b x =>
    refine .inr (.inl ⟨by simp, rfl, ?_⟩)
    have e : receiveAll [(b, x)] s = .next t := by
      change receiveByte b x s = .next t at h
      simp [receiveAll, h]
    exact receiveAll_receives e
  | interpret f => exact .inr (.inl ⟨by simp, rfl, interpretFrame_receives h⟩)
  | sched x =>
    refine .inr (.inr (.inl ⟨by simp, rfl, [], x, s, .inl rfl, rfl, Receives.refl s, ?_⟩))
    exact (Host.Outcome.next.inj h).symm
  | tick drained x =>
    obtain ⟨u, hu, hs⟩ := andThen_eq_next.mp h
    refine .inr (.inr (.inl ⟨by simp, rfl, drained.map (·.2), x, u, .inr ⟨_, rfl⟩, rfl, ?_,
      (Host.Outcome.next.inj hs).symm⟩))
    exact receiveAll_receives hu
  | enq f => exact .inr (.inr (.inr (.inl ⟨by simp, rfl, f, rfl, (Host.Outcome.next.inj h).symm⟩)))
  | encodePayload p => exact .inr (.inr (.inr (.inr ⟨by simp, rfl, rfl, _, (Host.Outcome.next.inj h).symm⟩)))
  | cmdReqStatus => exact .inr (.inr (.inr (.inl ⟨by simp, rfl, _, rfl, cmd rfl⟩)))
  | cmdForceLocal => exact .inr (.inr (.inr (.inl ⟨by simp, rfl, _, rfl, cmd rfl⟩)))
  | cmdForceRemote => exact .inr (.inr (.inr (.inl ⟨by simp, rfl, _, rfl, cmd rfl⟩)))
  | cmdRun => exact .inr (.inr (.inr (.inl ⟨by simp, rfl, _, rfl, cmd rfl⟩)))
  | cmdStop => exact .inr (.inr (.inr (.inl ⟨by simp, rfl, _, rfl, cmd rfl⟩)))
  | cmdSelLocal n => exact .inr (.inr (.inr (.inl ⟨by simp, rfl, _, rfl, cmd rfl⟩)))
  | cmdSelExt n => exact .inr (.inr (.inr (.inl ⟨by simp, rfl, _, rfl, cmd rfl⟩)))
  | cmdSave n v => exact .inr (.inr (.inr (.inl ⟨by simp, rfl, _, rfl, cmd rfl⟩)))
  | cmdSpeed r => exact .inr (.inr (.inr (.inl ⟨by simp, rfl, _, rfl, cmd rfl⟩)))
  | cmdFlow f => exact .inr (.inr (.inr (.inl ⟨by simp, rfl, _, rfl, cmd rfl⟩)))
  | rxExtProg60 f => exact .inr (.inl ⟨by simp, rfl, extProg_receives h⟩)
  | rxExtProg61 f => exact .inr (.inl ⟨by simp, rfl, extProg_receives h⟩)
  | rxExtProg62 f => exact .inr (.inl ⟨by simp, rfl, extProg_receives h⟩)
  | rxLocalCtrl60 f => exact .inr (.inl ⟨by simp, rfl, localCtrl_receives h⟩)
  | rxLocalCtrl61 f => exact .inr (.inl ⟨by simp, rfl, localCtrl_receives h⟩)
  | rxLocalCtrl62 f => exact .inr (.inl ⟨by simp, rfl, localCtrl_receives h⟩)
  | rxRemoteCtrl60 f => exact .inr (.inl ⟨by simp, rfl, remoteCtrl_receives h⟩)
  | rxRemoteCtrl61 f => exact .inr (.inl ⟨by simp, rfl, remoteCtrl_receives h⟩)
  | rxRemoteCtrl62 f => exact .inr (.inl ⟨by simp, rfl, remoteCtrl_receives h⟩)
  | rxLocalProg60 f => exact .inr (.inl ⟨by simp, rfl, localProg_receives h⟩)
  | rxLocalProg61 f => exact .inr (.inl ⟨by simp, rfl, localProg_receives h⟩)
  | rxLocalProg62 f => exact .inr (.inl ⟨by simp, rfl, localProg_receives h⟩)
  | rxStatus60 f => exact .inr (.inl ⟨by simp, rfl, statusReport_receives h⟩)
  | rxStatus61 f => exact .inr (.inl ⟨by simp, rfl, statusReport_receives h⟩)
  | rxStatus62 f => exact .inr (.inl ⟨by simp, rfl, statusReport_receives h⟩)

end Sys2Proof.Machine
end

