-- ==== Sys2Proof/Laws/PerInstr.lean ====
section
/-! SUPPORT. Statements for every instruction: whatever transaction decodes to an instruction, the instruction is well
formed, where the interpreter is handed accepted frames only. -/

namespace Sys2Proof.Laws.DecodeSound

/-- Decoding never gives this instruction ill formed: every operand condition the spec states for its row holds. The
interpreter's contract (R210) is the premise on the transactions that hand it a byte string. -/
def Statement (i : Instr) : Prop := ∀ x : Transaction, x.wf = true → decode x = .instr i → i.wf = true

theorem frame (r0 r1 r2 r3 : Byte) (payload : List Byte) (ck : Word16) (t : Nat) : Statement (.frame r0 r1 r2 r3 payload ck t) := fun _ => decode_wf
theorem cmdReqStatus : Statement (.cmdReqStatus) := fun _ => decode_wf
theorem cmdForceLocal : Statement (.cmdForceLocal) := fun _ => decode_wf
theorem cmdForceRemote : Statement (.cmdForceRemote) := fun _ => decode_wf
theorem cmdRun : Statement (.cmdRun) := fun _ => decode_wf
theorem cmdStop : Statement (.cmdStop) := fun _ => decode_wf
theorem cmdSelLocal (n : Byte) : Statement (.cmdSelLocal n) := fun _ => decode_wf
theorem cmdSelExt (n : Byte) : Statement (.cmdSelExt n) := fun _ => decode_wf
theorem cmdSave (n : Byte) (v : Word16) : Statement (.cmdSave n v) := fun _ => decode_wf
theorem cmdSpeed (r : Word16) : Statement (.cmdSpeed r) := fun _ => decode_wf
theorem cmdFlow (f : Byte) : Statement (.cmdFlow f) := fun _ => decode_wf
theorem rxExtProg60 (f : Frame) : Statement (.rxExtProg60 f) := fun _ => decode_wf
theorem rxExtProg61 (f : Frame) : Statement (.rxExtProg61 f) := fun _ => decode_wf
theorem rxExtProg62 (f : Frame) : Statement (.rxExtProg62 f) := fun _ => decode_wf
theorem rxLocalCtrl60 (f : Frame) : Statement (.rxLocalCtrl60 f) := fun _ => decode_wf
theorem rxLocalCtrl61 (f : Frame) : Statement (.rxLocalCtrl61 f) := fun _ => decode_wf
theorem rxLocalCtrl62 (f : Frame) : Statement (.rxLocalCtrl62 f) := fun _ => decode_wf
theorem rxRemoteCtrl60 (f : Frame) : Statement (.rxRemoteCtrl60 f) := fun _ => decode_wf
theorem rxRemoteCtrl61 (f : Frame) : Statement (.rxRemoteCtrl61 f) := fun _ => decode_wf
theorem rxRemoteCtrl62 (f : Frame) : Statement (.rxRemoteCtrl62 f) := fun _ => decode_wf
theorem rxLocalProg60 (f : Frame) : Statement (.rxLocalProg60 f) := fun _ => decode_wf
theorem rxLocalProg61 (f : Frame) : Statement (.rxLocalProg61 f) := fun _ => decode_wf
theorem rxLocalProg62 (f : Frame) : Statement (.rxLocalProg62 f) := fun _ => decode_wf
theorem rxStatus60 (f : Frame) : Statement (.rxStatus60 f) := fun _ => decode_wf
theorem rxStatus61 (f : Frame) : Statement (.rxStatus61 f) := fun _ => decode_wf
theorem rxStatus62 (f : Frame) : Statement (.rxStatus62 f) := fun _ => decode_wf
theorem reset : Statement (.reset) := fun _ => decode_wf
theorem feed (b : Byte) : Statement (.feed b) := fun _ => decode_wf
theorem rxByte (b : Byte) (t : Nat) : Statement (.rxByte b t) := fun _ => decode_wf
theorem sched (t : Nat) : Statement (.sched t) := fun _ => decode_wf
theorem enq (f : Frame) : Statement (.enq f) := fun _ => decode_wf
theorem encodePayload (p : List Byte) : Statement (.encodePayload p) := fun _ => decode_wf
theorem interpret (f : Frame) : Statement (.interpret f) := fun _ => decode_wf
theorem tick (drained : List (Byte × Nat)) (t : Nat) : Statement (.tick drained t) := fun _ => decode_wf

end Sys2Proof.Laws.DecodeSound
end

