-- ==== Sys2Proof/Tests/Slice0.lean ====
section
/-! SUPPORT. The model's own tests: ill-formed terms, words of the spec's encodings, single operations with the results
of spec/95_test_vectors.md, and for every statement with hypotheses a state that meets them. -/

namespace Sys2Proof.Tests

open Sys2Proof Sys2Proof.Machine

/-- The state after reset with this Receive Buffer. -/
def st (m : List Byte) : State := { State.reset with rxBuf := m }

/-- The state after reset with this Transmit Queue and depth. -/
def queued (q : List Frame) (depth : Option Nat) : State :=
  { State.reset with txq := q, cfg := { Config.defaults with txqDepth := depth } }

/-- The next state, if the operation completes. -/
def next? : Result → Option State
  | .next t => some t
  | _ => none

/-- The events an operation adds to an empty trace. -/
def events (r : Result) : List Event := ((next? r).map (·.out)).getD []

/-- The fault, if the operation stops with one. -/
def fault? : Result → Option Fault
  | .fault f => some f
  | _ => none

/-- The frame of test vector I6 as accepted, and the buffer one byte before it is complete. -/
def statusFrame : Frame := [0xA5, 0x00, 0x10, 0x60, 0x07, 0x07, 0x01, 0x00, 0x00, 0x01, 0xF4, 0x07, 0x08, 0x02, 0x28]

/-- The frame of test vector I14 as accepted: a status report of 12 bytes. -/
def shortFrame : Frame := [0xA5, 0x00, 0x10, 0x60, 0x07, 0x04, 0x01, 0x00, 0x00, 0x01, 0x01, 0x22]

/-- The frame of test vector E4. -/
def runFrame : Frame := [0xFF, 0x00, 0xFF, 0xA5, 0x00, 0x60, 0x10, 0x06, 0x01, 0x0A, 0x01, 0x26]

/-! ### Ill-formed terms -/

theorem test_wf_frame_length : (Instr.frame 0 0 0 0 (List.replicate 256 0) 0 0).wf = false ∧
    (Instr.frame 0 0 0 0 (List.replicate 255 0) 0 0).wf = true := by
  constructor <;> (rw [Instr.wf, List.length_replicate]; rfl)

/-- Not an accepted frame: a byte too many, and no `A5` in front. -/
theorem test_wf_rx_shape :
    (∀ i ∈ [Instr.rxExtProg60, .rxExtProg61, .rxExtProg62, .rxLocalCtrl60, .rxLocalCtrl61, .rxLocalCtrl62,
        .rxRemoteCtrl60, .rxRemoteCtrl61, .rxRemoteCtrl62, .rxLocalProg60, .rxLocalProg61, .rxLocalProg62,
        .rxStatus60, .rxStatus61, .rxStatus62, .interpret], (i (statusFrame ++ [0x00])).wf = false) ∧
    (Instr.interpret ([0xA4] ++ statusFrame.drop 1)).wf = false ∧ (Instr.interpret statusFrame).wf = true := by decide

/-- An accepted frame with another response identifier, and one with another opcode. -/
theorem test_wf_rx_ids :
    (∀ i ∈ [Instr.rxExtProg60, .rxExtProg61, .rxExtProg62, .rxLocalProg60, .rxLocalProg61, .rxLocalProg62,
        .rxStatus61, .rxStatus62], (i statusFrame).wf = false) ∧
    (Instr.rxStatus60 [0xA5, 0, 0, 0x61, 0x07, 0, 0, 0]).wf = false ∧
    (Instr.rxStatus60 [0xA5, 0, 0, 0x60, 0x08, 0, 0, 0]).wf = false ∧
    (Instr.rxStatus60 [0xA5, 0, 0, 0x60, 0x07, 0, 0, 0]).wf = true := by decide

/-- Control reports: another response identifier, opcode or first payload byte. -/
theorem test_wf_rx_control :
    (∀ i ∈ [Instr.rxLocalCtrl60, .rxLocalCtrl61, .rxLocalCtrl62, .rxRemoteCtrl60, .rxRemoteCtrl61, .rxRemoteCtrl62],
      (i [0xA5, 0, 0, 0x63, 0x04, 0, 0, 0]).wf = false ∧ (i [0xA5, 0, 0, 0x60, 0x05, 0, 0, 0]).wf = false ∧
      (i [0xA5, 0, 0, 0x60, 0x04, 0, 0x7F, 0]).wf = false) ∧
    (Instr.rxLocalCtrl60 [0xA5, 0, 0, 0x60, 0x04, 0, 0xFF, 0]).wf = false ∧
    (Instr.rxRemoteCtrl60 [0xA5, 0, 0, 0x60, 0x04, 0, 0xFF, 0]).wf = true := by decide

/-! ### Decoding: words written out from 30_encoding and 95_test_vectors -/

theorem test_decode_fixed_commands :
    decode (.coded [0xFF, 0x00, 0xFF, 0xA5, 0x00, 0x60, 0x10, 0x07, 0x00, 0x01, 0x1C]) = .instr .cmdReqStatus ∧
    decode (.coded [0xFF, 0x00, 0xFF, 0xA5, 0x00, 0x60, 0x10, 0x04, 0x01, 0x00, 0x01, 0x1A]) = .instr .cmdForceLocal ∧
    decode (.coded [0xFF, 0x00, 0xFF, 0xA5, 0x00, 0x60, 0x10, 0x04, 0x01, 0xFF, 0x02, 0x19]) = .instr .cmdForceRemote ∧
    decode (.coded [0xFF, 0x00, 0xFF, 0xA5, 0x00, 0x60, 0x10, 0x06, 0x01, 0x0A, 0x01, 0x26]) = .instr .cmdRun ∧
    decode (.coded [0xFF, 0x00, 0xFF, 0xA5, 0x00, 0x60, 0x10, 0x06, 0x01, 0x04, 0x01, 0x20]) = .instr .cmdStop := by
  decide

/-- E7, E11, E14, E18, E22. -/
theorem test_decode_argument_commands :
    decode (.coded [0xFF, 0x00, 0xFF, 0xA5, 0x00, 0x60, 0x10, 0x05, 0x01, 0x04, 0x01, 0x1F]) =
      .instr (.cmdSelLocal 3) ∧
    decode (.coded [0xFF, 0x00, 0xFF, 0xA5, 0x00, 0x60, 0x10, 0x01, 0x04, 0x03, 0x21, 0x00, 0x20, 0x01, 0x5E]) =
      .instr (.cmdSelExt 4) ∧
    decode (.coded [0xFF, 0x00, 0xFF, 0xA5, 0x00, 0x60, 0x10, 0x01, 0x04, 0x03, 0x27, 0x05, 0xDC, 0x02, 0x25]) =
      .instr (.cmdSave 1 1500) ∧
    decode (.coded [0xFF, 0x00, 0xFF, 0xA5, 0x00, 0x60, 0x10, 0x0A, 0x04, 0x02, 0xC4, 0x0D, 0x7A, 0x02, 0x70]) =
      .instr (.cmdSpeed 3450) ∧
    decode (.coded [0xFF, 0x00, 0xFF, 0xA5, 0x00, 0x60, 0x10, 0x09, 0x04, 0x02, 0xC4, 0x00, 0x78, 0x02, 0x60]) =
      .instr (.cmdFlow 120) := by decide

/-- I1, I2, I3, I5, I6, and the other two response identifiers in their place. -/
theorem test_decode_classes :
    (∀ x ∈ [((0x60 : Byte), Instr.rxExtProg60), (0x61, .rxExtProg61), (0x62, .rxExtProg62)],
      decode (.accepted [0xA5, 0x00, 0x10, x.1, 0x01, 0x01, 0x08, 0x01, 0x1F]) =
        .instr (x.2 [0xA5, 0x00, 0x10, x.1, 0x01, 0x01, 0x08, 0x01, 0x1F])) ∧
    (∀ x ∈ [((0x60 : Byte), Instr.rxLocalCtrl60), (0x61, .rxLocalCtrl61), (0x62, .rxLocalCtrl62)],
      decode (.accepted [0xA5, 0x00, 0x10, x.1, 0x04, 0x01, 0x00, 0x01, 0x1A]) =
        .instr (x.2 [0xA5, 0x00, 0x10, x.1, 0x04, 0x01, 0x00, 0x01, 0x1A])) ∧
    (∀ x ∈ [((0x60 : Byte), Instr.rxRemoteCtrl60), (0x61, .rxRemoteCtrl61), (0x62, .rxRemoteCtrl62)],
      decode (.accepted [0xA5, 0x00, 0x10, x.1, 0x04, 0x01, 0xFF, 0x02, 0x19]) =
        .instr (x.2 [0xA5, 0x00, 0x10, x.1, 0x04, 0x01, 0xFF, 0x02, 0x19])) ∧
    (∀ x ∈ [((0x60 : Byte), Instr.rxLocalProg60), (0x61, .rxLocalProg61), (0x62, .rxLocalProg62)],
      decode (.accepted [0xA5, 0x00, 0x10, x.1, 0x05, 0x02, 0x00, 0x03, 0x01, 0x1F]) =
        .instr (x.2 [0xA5, 0x00, 0x10, x.1, 0x05, 0x02, 0x00, 0x03, 0x01, 0x1F])) ∧
    (∀ x ∈ [((0x60 : Byte), Instr.rxStatus60), (0x61, .rxStatus61), (0x62, .rxStatus62)],
      decode (.accepted [0xA5, 0x00, 0x10, x.1, 0x07, 0x07, 0x01, 0x00, 0x00, 0x01, 0xF4, 0x07, 0x08, 0x02, 0x28]) =
        .instr (x.2 [0xA5, 0x00, 0x10, x.1, 0x07, 0x07, 0x01, 0x00, 0x00, 0x01, 0xF4, 0x07, 0x08, 0x02, 0x28])) := by
  decide

/-- A byte string that is no accepted frame is outside the interpreter's contract. -/
theorem test_wf_transactions :
    (Transaction.accepted (statusFrame ++ [0x00])).wf = false ∧ (Transaction.accepted statusFrame).wf = true ∧
    (Transaction.interpretCall [0xA4, 0, 0, 0, 0, 0, 0, 0]).wf = false ∧
    (Transaction.interpretCall statusFrame).wf = true := by decide

/-- I4, I11, I12: accepted frames of no class; and bytes that are no row of the table. -/
theorem test_decode_no_class :
    decode (.accepted [0xA5, 0x00, 0x10, 0x60, 0x04, 0x01, 0x7F, 0x01, 0x99]) = .ignored ∧
    decode (.accepted [0xA5, 0x00, 0x60, 0x10, 0x64, 0x00, 0x01, 0x79]) = .ignored ∧
    decode (.link [0xFF, 0x00] 7) = .noRow [0xFF, 0x00] 7 ∧ decode (.coded [0x12]) = .noRow [0x12] 0 := by decide

theorem test_decode_ports :
    decode .rst = .instr .reset ∧ decode (.rx 0x12 34) = .instr (.rxByte 0x12 34) ∧
    decode (.tick 101) = .instr (.sched 101) ∧ decode (.cmd 0 9 9) = .instr .cmdReqStatus ∧
    decode (.cmd 7 1 1500) = .instr (.cmdSave 1 1500) ∧ decode (.cmd 9 120 0) = .instr (.cmdFlow 120) ∧
    decode (.cmd 10 0 0) = .ignored ∧ decode (.cmd 15 0 0) = .ignored ∧
    decode (.hostTick [(0x00, 7)] 8) = .instr (.tick [(0x00, 7)] 8) ∧ decode (.feedCall 3) = .instr (.feed 3) ∧
    decode (.enqCall [1]) = .instr (.enq [1]) ∧ decode (.encodeCall [1]) = .instr (.encodePayload [1]) ∧
    decode (.interpretCall statusFrame) = .instr (.interpret statusFrame) := by decide

/-- Words of spec/opcode_table.json: FRAME, CMD.RUN and RX.STATUS@61, first byte lowest; CMD.RUN with the hex string
read as one number. -/
theorem test_decode_table_words :
    decodeTableWord 32 0xA5FF00FF = some (.frame 0 0 0 0 [] 0 0) ∧
    decodeTableWord 96 0x26010A0106106000A5FF00FF = some .cmdRun ∧
    decodeTableWord 56 0x000007610000A5 = some (.rxStatus61 [0xA5, 0, 0, 0x61, 0x07, 0, 0, 0]) ∧
    decodeTableWord 96 0xFF00FFA500601006010A0126 = some .cmdRun ∧ decodeTableWord 0 0 = none := by decide

/-- The word placed at the inputs is the one the next step runs. -/
theorem test_step_runs_placed_word :
    (next? (step (State.reset.withFetchWord 96 0x26010A0106106000A5FF00FF))).map (·.txq) = some [runFrame] := by decide

/-- V7 and T3: a stray byte on the link, and the first of two. -/
theorem test_step_bytes_on_the_link :
    (next? (step { State.reset with inputs := [.link [0x12] 100] })).map
      (fun t => (t.lastActivity, t.out, t.inputs)) = some (100, [.result (.rejected .hdr0)], [.link [] 100]) ∧
    (next? (step { State.reset with inputs := [.link [0xFF, 0x00] 600, .rst] })).map
      (fun t => (t.rxBuf, t.lastActivity, t.inputs)) = some ([0xFF], 600, [.link [0x00] 600, .rst]) := by decide

/-! ### Single operations -/

/-- Z1. -/
theorem test_reset :
    next? (exec .reset
      { st [0xFF, 0x00] with
        txq := [runFrame]
        lastActivity := 241
        schedState := .quiet
        obsRunning := some true
        obsPower := some 500
        obsSpeed := some 1800 }) = some State.reset := by decide

/-- V1 and V2, whole frames. -/
theorem test_frame_accepts_and_rejects :
    (events (exec (.frame 0 0 0 0 [] 0x00A5 5) State.reset)).drop 10 =
      [.diag .info .frameRx (.bytes [0xA5, 0, 0, 0, 0, 0, 0, 0xA5]), .result (.accepted [0xA5, 0, 0, 0, 0, 0, 0, 0xA5])] ∧
    (events (exec (.frame 0 0 0 0 [] 0x00C9 5) State.reset)).drop 10 =
      [.diag .warn .cksumMismatch (.sums 0x00A5 0x00C9), .result (.rejected .cksum)] := by decide

/-- I6. -/
theorem test_frame_status :
    (events (exec (.frame 0 0x10 0x60 0x07 [1, 0, 0, 0x01, 0xF4, 0x07, 0x08] 0x0228 5) State.reset)).drop 17 =
      [.pubRun true, .pubPower 500, .pubSpeed 1800, .diag .info .frameRx (.bytes statusFrame),
        .result (.accepted statusFrame)] := by decide

/-- V7, V8, V9, V10: the byte that fails at each header position. -/
theorem test_feed_header :
    events (exec (.feed 0x12) (st [])) = [.result (.rejected .hdr0)] ∧
    events (exec (.feed 0x01) (st [0xFF])) = [.result (.rejected .hdr1)] ∧
    events (exec (.feed 0x00) (st [0xFF, 0x00])) = [.result (.rejected .hdr2)] ∧
    events (exec (.feed 0x00) (st [0xFF, 0x00, 0xFF])) = [.result (.rejected .hdr3)] := by decide

/-- V3 against V5: the last byte. -/
theorem test_feed_last_byte :
    events (exec (.feed 0x26) (st (runFrame.take 11))) =
      [.diag .info .frameRx (.bytes (runFrame.drop 3)), .result (.accepted (runFrame.drop 3))] ∧
    events (exec (.feed 0x27) (st (runFrame.take 11))) =
      [.diag .warn .cksumMismatch (.sums 0x0126 0x0127), .result (.rejected .cksum)] := by decide

/-- T3 and T4. -/
theorem test_rxbyte :
    (next? (exec (.rxByte 0x00 100) State.reset)).map (fun t => (t.lastActivity, t.schedState, t.out)) =
      some (100, .busy, [.result (.rejected .hdr0)]) ∧
    (next? (exec (.rxByte 0xFF 600) { State.reset with schedState := .quiet })).map
      (fun t => (t.lastActivity, t.schedState, t.rxBuf)) = some (600, .busy, [0xFF]) := by decide

/-- T1 at 100 and at 101. -/
theorem test_sched_gate :
    next? (exec (.sched 100) (queued [runFrame] none)) = some (queued [runFrame] none) ∧
    (next? (exec (.sched 101) (queued [runFrame] none))).map (fun t => (t.txq, t.lastActivity, t.schedState, t.out)) =
      some ([], 101, .busy, [.txFlush, .txWrite runFrame]) := by decide

/-- T5 at 90 and at 91: the clock has wrapped. -/
theorem test_sched_wrap :
    events (exec (.sched 90) { queued [runFrame] none with lastActivity := 4294967286 }) = [] ∧
    events (exec (.sched 91) { queued [runFrame] none with lastActivity := 4294967286 }) =
      [.txFlush, .txWrite runFrame] := by decide

/-- T6. -/
theorem test_enq_overflow :
    next? (exec (.enq [1]) (queued [runFrame] (some 2))) = some (queued [runFrame, [1]] (some 2)) ∧
    events (exec .cmdReqStatus (queued [runFrame, runFrame] (some 2))) =
      [.diag .warn .txqOverflow (.bytes [0xFF, 0x00, 0xFF, 0xA5, 0x00, 0x60, 0x10, 0x07, 0x00, 0x01, 0x1C])] := by
  decide

/-- T7: the byte of this tick holds the frame back. -/
theorem test_tick :
    (next? (exec (.tick [(0x00, 1000)] 1000) { queued [runFrame] none with schedState := .quiet })).map
      (fun t => (t.txq, t.lastActivity, t.schedState)) = some ([runFrame], 1000, .busy) ∧
    events (exec (.tick [] 151) { queued [runFrame] none with schedState := .quiet }) =
      [.txFlush, .txWrite runFrame] := by decide

/-- E24 and E25. -/
theorem test_encode :
    (next? (exec (.encodePayload [0xA5, 0, 0, 0, 0, 0]) State.reset)).map (·.ret) =
      some (some [0xFF, 0x00, 0xFF, 0xA5, 0, 0, 0, 0, 0, 0x00, 0xA5]) ∧
    (next? (exec (.encodePayload []) State.reset)).map (·.ret) = some (some [0xFF, 0x00, 0xFF, 0x00, 0x00]) := by decide

/-- The frame a command queues on the state after reset. -/
def queues (i : Instr) : Option (List Frame) := (next? (exec i State.reset)).map (·.txq)

/-- E1 to E5. -/
theorem test_fixed_commands :
    queues .cmdReqStatus = some [[0xFF, 0x00, 0xFF, 0xA5, 0x00, 0x60, 0x10, 0x07, 0x00, 0x01, 0x1C]] ∧
    queues .cmdForceLocal = some [[0xFF, 0x00, 0xFF, 0xA5, 0x00, 0x60, 0x10, 0x04, 0x01, 0x00, 0x01, 0x1A]] ∧
    queues .cmdForceRemote = some [[0xFF, 0x00, 0xFF, 0xA5, 0x00, 0x60, 0x10, 0x04, 0x01, 0xFF, 0x02, 0x19]] ∧
    queues .cmdRun = some [runFrame] ∧
    queues .cmdStop = some [[0xFF, 0x00, 0xFF, 0xA5, 0x00, 0x60, 0x10, 0x06, 0x01, 0x04, 0x01, 0x20]] := by decide

/-- E7, E8; E12, E13. -/
theorem test_select_commands :
    queues (.cmdSelLocal 3) = some [[0xFF, 0x00, 0xFF, 0xA5, 0x00, 0x60, 0x10, 0x05, 0x01, 0x04, 0x01, 0x1F]] ∧
    queues (.cmdSelLocal 255) = some [[0xFF, 0x00, 0xFF, 0xA5, 0x00, 0x60, 0x10, 0x05, 0x01, 0x00, 0x01, 0x1B]] ∧
    queues (.cmdSelExt 31) =
      some [[0xFF, 0x00, 0xFF, 0xA5, 0x00, 0x60, 0x10, 0x01, 0x04, 0x03, 0x21, 0x00, 0xF8, 0x02, 0x36]] ∧
    queues (.cmdSelExt 32) =
      some [[0xFF, 0x00, 0xFF, 0xA5, 0x00, 0x60, 0x10, 0x01, 0x04, 0x03, 0x21, 0x00, 0x00, 0x01, 0x3E]] := by decide

/-- E14, E16; E17, E20; E22, E23. -/
theorem test_value_commands :
    queues (.cmdSave 1 1500) =
      some [[0xFF, 0x00, 0xFF, 0xA5, 0x00, 0x60, 0x10, 0x01, 0x04, 0x03, 0x27, 0x05, 0xDC, 0x02, 0x25]] ∧
    queues (.cmdSave 4 65535) =
      some [[0xFF, 0x00, 0xFF, 0xA5, 0x00, 0x60, 0x10, 0x01, 0x04, 0x03, 0x2A, 0xFF, 0xFF, 0x03, 0x45]] ∧
    queues (.cmdSpeed 1800) =
      some [[0xFF, 0x00, 0xFF, 0xA5, 0x00, 0x60, 0x10, 0x0A, 0x04, 0x02, 0xC4, 0x07, 0x08, 0x01, 0xF8]] ∧
    queues (.cmdSpeed 65535) =
      some [[0xFF, 0x00, 0xFF, 0xA5, 0x00, 0x60, 0x10, 0x0A, 0x04, 0x02, 0xC4, 0xFF, 0xFF, 0x03, 0xE7]] ∧
    queues (.cmdFlow 120) =
      some [[0xFF, 0x00, 0xFF, 0xA5, 0x00, 0x60, 0x10, 0x09, 0x04, 0x02, 0xC4, 0x00, 0x78, 0x02, 0x60]] ∧
    queues (.cmdFlow 255) =
      some [[0xFF, 0x00, 0xFF, 0xA5, 0x00, 0x60, 0x10, 0x09, 0x04, 0x02, 0xC4, 0x00, 0xFF, 0x02, 0xE7]] := by decide

/-- I1 to I5, I12, I16, I17. -/
theorem test_interpret_reports :
    (∀ x ∈ [([0xA5, 0x00, 0x10, 0x60, 0x01, 0x01, 0x08, 0x01, 0x1F], [Event.diag .info .extProg (.byte 0x08)]),
        ([0xA5, 0x00, 0x10, 0x60, 0x04, 0x01, 0x00, 0x01, 0x1A], [.diag .info .localCtrl .none]),
        ([0xA5, 0x00, 0x10, 0x60, 0x04, 0x01, 0xFF, 0x02, 0x19], [.diag .info .remoteCtrl .none]),
        ([0xA5, 0x00, 0x10, 0x60, 0x04, 0x01, 0x7F, 0x01, 0x99], []),
        ([0xA5, 0x00, 0x10, 0x60, 0x05, 0x02, 0x00, 0x03, 0x01, 0x1F], [.diag .info .localProg (.byte 0x03)]),
        ([0xA5, 0x00, 0x60, 0x10, 0x64, 0x00, 0x01, 0x79], []),
        ([0xA5, 0x00, 0x10, 0x60, 0x01, 0x00, 0x01, 0x16], [.diag .info .extProg (.byte 0x01)]),
        ([0xA5, 0x00, 0x10, 0x60, 0x05, 0x00, 0x01, 0x1A], [.diag .info .localProg (.byte 0x1A)])],
      events (exec (.interpret x.1) State.reset) = x.2) := by decide

/-- I14, I15. -/
theorem test_interpret_short_status :
    fault? (exec (.interpret shortFrame) State.reset) = some .interpShortFrame ∧
    events (exec (.interpret [0xA5, 0x00, 0x10, 0x60, 0x07, 0x05, 0x01, 0x00, 0x00, 0x01, 0xF4, 0x02, 0x17]) State.reset) =
      [.pubRun true, .pubPower 500, .pubSpeed 535] := by decide

/-- I6, I8, M1, M4 on the status rows. -/
theorem test_status_rows :
    (∀ i ∈ [Instr.rxStatus60 statusFrame, .rxStatus61 statusFrame, .rxStatus62 statusFrame],
      (next? (exec i State.reset)).map (fun t => (t.obsRunning, t.obsPower, t.obsSpeed)) =
        some (some true, some 500, some 1800)) ∧
    events (exec (.rxStatus60 statusFrame)
      { State.reset with cfg := { Config.defaults with monRun := false, monSpeed := false } }) = [.pubPower 500] ∧
    events (exec (.rxStatus60 (statusFrame.set 6 0x0A))
      { State.reset with cfg := { Config.defaults with monPower := false, monSpeed := false } }) =
      [.diag .info .runUnknown (.byte 0x0A)] := by decide

/-- The twelve report-only rows. -/
theorem test_report_rows :
    (∀ i ∈ [Instr.rxExtProg60, .rxExtProg61, .rxExtProg62],
      events (exec (i statusFrame) State.reset) = [.diag .info .extProg (.byte 0x01)]) ∧
    (∀ i ∈ [Instr.rxLocalCtrl60, .rxLocalCtrl61, .rxLocalCtrl62],
      events (exec (i statusFrame) State.reset) = [.diag .info .localCtrl .none]) ∧
    (∀ i ∈ [Instr.rxRemoteCtrl60, .rxRemoteCtrl61, .rxRemoteCtrl62],
      events (exec (i statusFrame) State.reset) = [.diag .info .remoteCtrl .none]) ∧
    (∀ i ∈ [Instr.rxLocalProg60, .rxLocalProg61, .rxLocalProg62],
      events (exec (i statusFrame) State.reset) = [.diag .info .localProg (.byte 0x00)]) := by decide

/-- The numbers of the cause and diagnostic ports (R241, R257). -/
theorem test_port_codes :
    [Cause.hdr0, .hdr1, .hdr2, .hdr3, .cksum].map causeCode = [0, 1, 2, 3, 4] ∧
    [DiagCode.frameRx, .cksumMismatch, .malformedOutbound, .extProg, .localCtrl, .remoteCtrl, .localProg, .runUnknown,
      .txqOverflow].map diagCodeNumber = [0, 1, 2, 3, 4, 5, 6, 7, 8] := by decide

/-! ### Witnesses: states and operands that meet the hypotheses of the statements -/

/-- A candidate with length byte `l` and `n` bytes after it. -/
def cand (l : Byte) (n : Nat) : List Byte := [0xFF, 0x00, 0xFF, 0xA5, 0, 0, 0, 0, l] ++ List.replicate n 0

theorem cand_length (l : Byte) (n : Nat) : (cand l n).length = n + 9 := by
  simp [cand]

theorem witness_AfterResetThePastIsForgotten :
    (queued [runFrame] none).cfg = State.reset.cfg ∧ queued [runFrame] none ≠ State.reset := by decide

theorem witness_FeedChecksHeaderByPosition :
    (st []).rxBuf.length = 0 ∧ (st [0xFF]).rxBuf.length = 1 ∧ (st [0xFF, 0x00]).rxBuf.length = 2 ∧
    (st [0xFF, 0x00, 0xFF]).rxBuf.length = 3 := by decide

/-- At both ends of the range. -/
theorem witness_FeedAcceptsReservedPositions :
    (∀ s ∈ [st (runFrame.take 4), st (runFrame.take 8)], 4 ≤ s.rxBuf.length ∧ s.rxBuf.length ≤ 8) ∧
    (st (runFrame.take 4)).rxBuf.length = 4 ∧ (st (runFrame.take 8)).rxBuf.length = 8 := by decide

/-- The first byte of the shortest frame's trailer, and the last byte before the longest frame's end. -/
theorem witness_FeedKeepsAcceptingUntilTheTotal :
    (9 ≤ (st (cand 0 0)).rxBuf.length ∧ (st (cand 0 0)).rxBuf[8]? = some 0 ∧
      (st (cand 0 0)).rxBuf.length + 1 < (0 : Byte).toNat + 11) ∧
    (9 ≤ (st (cand 255 255)).rxBuf.length ∧ (st (cand 255 255)).rxBuf[8]? = some 255 ∧
      (st (cand 255 255)).rxBuf.length + 1 < (255 : Byte).toNat + 11) := by
  refine ⟨by decide, ?_, rfl, ?_⟩
  · change 9 ≤ (cand 255 255).length
    rw [cand_length]
    decide
  · change (cand 255 255).length + 1 < _
    rw [cand_length]
    decide

/-- The shortest frame, and the run frame. -/
theorem witness_FeedRejectsAWrongChecksum :
    ((st (cand 0 1)).rxBuf[8]? = some 0 ∧ (st (cand 0 1)).rxBuf.length = (0 : Byte).toNat + 10 ∧
      (st (cand 0 1)).rxBuf[(0 : Byte).toNat + 9]? = some 0 ∧
      ((((st (cand 0 1)).rxBuf.drop 3).take ((0 : Byte).toNat + 6)).map BitVec.toNat).sum % 65536 ≠
        (0 : Byte).toNat * 256 + (0xC9 : Byte).toNat) ∧
    ((st (runFrame.take 11)).rxBuf[8]? = some 1 ∧ (st (runFrame.take 11)).rxBuf.length = (1 : Byte).toNat + 10 ∧
      (st (runFrame.take 11)).rxBuf[(1 : Byte).toNat + 9]? = some 1 ∧
      ((((st (runFrame.take 11)).rxBuf.drop 3).take ((1 : Byte).toNat + 6)).map BitVec.toNat).sum % 65536 ≠
        (1 : Byte).toNat * 256 + (0x27 : Byte).toNat) := by decide

theorem witness_FeedAcceptsARightChecksum :
    (st (runFrame.take 11)).rxBuf[8]? = some 1 ∧ (st (runFrame.take 11)).rxBuf.length = (1 : Byte).toNat + 10 ∧
    (st (runFrame.take 11)).rxBuf[(1 : Byte).toNat + 9]? = some 1 ∧
    ((((st (runFrame.take 11)).rxBuf.drop 3).take ((1 : Byte).toNat + 6)).map BitVec.toNat).sum % 65536 =
      (1 : Byte).toNat * 256 + (0x26 : Byte).toNat ∧
    next? (exec (.interpret (((st (runFrame.take 11)).rxBuf ++ [0x26]).drop 3))
      { st (runFrame.take 11) with rxBuf := (st (runFrame.take 11)).rxBuf ++ [0x26] }) = some (st runFrame) := by decide

/-- A byte that is kept, one that ends a candidate, and one that completes a frame. -/
theorem witness_FeedClearsAfterEitherOutcome :
    (next? (exec (.feed 0xFF) (st []))).isSome ∧ (next? (exec (.feed 0x01) (st [0xFF]))).isSome ∧
    (next? (exec (.feed 0x26) (st (runFrame.take 11)))).isSome := by decide

/-- One byte that completes a short status report, one that does not; one that accepts a frame, one that does not. -/
theorem witness_FeedCompletesUnlessShortStatus :
    feedStops ([0xFF, 0x00, 0xFF] ++ shortFrame.dropLast) 0x22 = true ∧
    feedStops (runFrame.take 11) 0x26 = false ∧ acceptedBy (runFrame.take 11) 0x26 = some (runFrame.drop 3) ∧
    acceptedBy (runFrame.take 11) 0x27 = none := by decide

/-- Both outcomes of the comparison. -/
theorem witness_CompletionDecidedByRunningSum :
    (st (runFrame.take 11)).rxBuf[8]? = some 1 ∧ (st (runFrame.take 11)).rxBuf.length = (1 : Byte).toNat + 10 ∧
    (st (runFrame.take 11)).rxBuf[(1 : Byte).toNat + 9]? = some 1 ∧
    (next? (exec (.feed 0x26) (st (runFrame.take 11)))).isSome ∧
    (next? (exec (.feed 0x27) (st (runFrame.take 11)))).isSome := by decide

theorem witness_StrayPreambleBytesGoInPairs : State.reset.rxBuf = [] := by decide

theorem witness_PartialCandidateStaysForAnyLengthOfTime :
    ∀ i ∈ [Instr.cmdRun, .sched 1000000, .enq [1], .encodePayload [], .cmdSave 1 1500], transmitSide i = true := by
  decide

/-- The shortest frame, and a whole status report. -/
theorem witness_ValidFrameIsAcceptedOnItsLastByte :
    State.reset.rxBuf = [] ∧ ([] : List Byte).length ≤ 255 ∧
    shortStatus ([0xA5, 0, 0, 0, 0, 0] ++ [] ++ [0x00, 0xA5]) = false ∧
    [0x01, 0x00, 0x00, (0x01 : Byte), 0xF4, 0x07, 0x08].length ≤ 255 ∧ shortStatus statusFrame = false := by decide

theorem witness_FrameWithAWrongTrailerIsRejected :
    State.reset.rxBuf = [] ∧ [(0x0A : Byte)].length ≤ 255 ∧
    (0x00B3 : Word16) ≠
      BitVec.ofNat 16 (([0xA5, 0x00, 0x60, 0x10, 0x06, 0x01] ++ [(0x0A : Byte)]).map BitVec.toNat).sum := by decide

/-- CMD.RUN's frame with a changed byte at the first reserved position, in the payload, and at either trailer byte. -/
theorem witness_SingleByteErrorIsDetected :
    State.reset.rxBuf = [] ∧ [(0x0A : Byte)].length ≤ 255 ∧
    runFrame = [0xFF, 0x00, 0xFF] ++ ([0xA5, 0x00, 0x60, 0x10, 0x06, 0x01] ++ [0x0A]) ++ [0x01, 0x26] ∧
    ((([0xA5, 0x00, 0x60, 0x10, 0x06, 0x01] ++ [(0x0A : Byte)]).map BitVec.toNat).sum % 65536 = 0x0126) ∧
    ∀ z ∈ [(4, (0x00 : Byte)), (9, 0x0A), (10, 0x01), (11, 0x26)],
      4 ≤ z.1 ∧ z.1 ≠ 8 ∧ runFrame[z.1]? = some z.2 ∧ (0x04 : Byte) ≠ z.2 := by decide

theorem witness_RxByteCompletesUnlessShortStatus :
    feedStops (st ([0xFF, 0x00, 0xFF] ++ shortFrame.dropLast)).rxBuf 0x22 = true ∧
    feedStops (st []).rxBuf 0x00 = false := by decide

/-- T5 at the two sides of the window; the clock has wrapped between the samples. -/
theorem witness_OneClockWrapIsHarmless :
    (∀ t ∈ [4294967386, 4294967387],
      { queued [runFrame] none with lastActivity := 4294967286 }.schedState = .busy ∧
      { queued [runFrame] none with lastActivity := 4294967286 }.txq = runFrame :: [] ∧
      { queued [runFrame] none with lastActivity := 4294967286 }.lastActivity = 4294967286 % 2 ^ 32 ∧
      4294967286 ≤ t ∧ t < 4294967286 + 2 ^ 32) ∧
    4294967386 - 4294967286 ≤ 100 ∧ 100 < 4294967387 - 4294967286 := by decide

/-- A finite queue with room for one frame. -/
theorem witness_EnqAppendsAtTheBack :
    ∀ d, (queued [runFrame] (some 2)).cfg.txqDepth = some d → (queued [runFrame] (some 2)).txq.length < d := by
  intro d h
  cases h
  decide

theorem witness_FullQueueDropsTheNewFrame :
    (Instr.enq runFrame = .enq runFrame ∨ commandFrame (.enq runFrame) = some runFrame) ∧
    (Instr.cmdRun = .enq runFrame ∨ commandFrame .cmdRun = some runFrame) ∧
    (queued [runFrame, runFrame] (some 2)).cfg.txqDepth = some 2 ∧
    (queued [runFrame, runFrame] (some 2)).txq.length = 2 := by decide

theorem witness_TickCompletesUnlessShortStatus :
    receiveStops (st ([0xFF, 0x00, 0xFF] ++ shortFrame.dropLast)).rxBuf
      ([((0x22 : Byte), 7), (0x00, 8)].map (·.1)) = true ∧
    receiveStops (st []).rxBuf ([((0xFF : Byte), 7), (0x00, 8)].map (·.1)) = false := by decide

theorem witness_TickThatDrainsSendsNothing :
    [(0x00 : Byte)] ≠ [] ∧
    (next? (exec (.tick ([(0x00 : Byte)].map fun b => (b, 1000)) 1000)
      { queued [runFrame] none with schedState := .quiet })).isSome := by decide

/-- A tick that sends and one that does not. -/
theorem witness_AtMostOneFrameLeavesPerTick :
    (next? (exec (.tick [] 101) (queued [runFrame] none))).isSome ∧
    (next? (exec (.tick [] 100) (queued [runFrame] none))).isSome := by decide

theorem witness_FlushDirectlyBeforeEveryWrite :
    flushPaired (queued [runFrame] none).out = true ∧
    (next? (exec (.sched 101) (queued [runFrame] none))).isSome := by decide

theorem witness_FramesLeaveInFifoOrder :
    Instr.reset ∉ [Instr.cmdStop, .sched 101, .sched 202] ∧ (queued [runFrame] none).cfg.txqDepth = none ∧
    (next? (runOps [.cmdStop, .sched 101, .sched 202] (queued [runFrame] none))).isSome := by decide

/-- T1: the writes at 101 and 202. -/
theorem witness_TransmissionsAreMoreThanTheQuietWindowApart :
    (∃ s u v w, exec (.sched 101) s = .next u ∧ writes u.out ≠ writes s.out ∧
      runOps [.sched 150, .sched 201] u = .next v ∧ exec (.sched 202) v = .next w ∧ writes w.out ≠ writes v.out ∧
      202 < 2 ^ s.cfg.clkW) ∧
    Instr.reset ∉ [Instr.sched 150, .sched 201] ∧
    (101 :: ([Instr.sched 150, .sched 201].flatMap opTimes ++ [202])).Pairwise (· ≤ ·) := by
  refine ⟨⟨queued [runFrame, runFrame] none, _, _, _, rfl, ?_, rfl, rfl, ?_, ?_⟩, ?_, ?_⟩ <;> decide

/-- T2: an idle link at 150. -/
theorem witness_QuietFlagMeansASilentLink :
    (∃ v, runOps [.sched 150] State.reset = .next v ∧ v.schedState = .quiet) ∧ State.reset.schedState = .busy ∧
    State.reset.lastActivity ≤ 0 ∧ (0 :: ([Instr.sched 150].flatMap opTimes ++ [151])).Pairwise (· ≤ ·) ∧
    151 < 2 ^ State.reset.cfg.clkW := by
  refine ⟨⟨_, rfl, ?_⟩, ?_⟩ <;> decide

/-- T3 up to 200: a byte at 100 keeps the link busy for the one scheduling tick. -/
theorem witness_NothingIsSentOnABusyLink :
    (queued [runFrame] none).schedState = .busy ∧
    (∀ d x, Instr.tick d x ∉ [Instr.rxByte 0x00 100, .sched 200]) ∧
    (∀ (before after : List Instr) (x : Nat) (u : State), [Instr.rxByte 0x00 100, .sched 200] = before ++ .sched x :: after →
      runOps before (queued [runFrame] none) = .next u →
      ((x : Int) - (u.lastActivity : Int)) % ((2 : Int) ^ u.cfg.clkW) ≤ 100) ∧
    (next? (runOps [Instr.rxByte 0x00 100, .sched 200] (queued [runFrame] none))).isSome := by
  refine ⟨rfl, by simp, ?_, by decide⟩
  intro before after x u h hr
  rcases before with _ | ⟨a, _ | ⟨b, _ | ⟨c, rest⟩⟩⟩ <;> simp at h
  obtain ⟨rfl, rfl, rfl⟩ := h
  cases hr
  decide

/-- Queues with room, unbounded and finite. -/
theorem witness_CommandsQueueTheirFrames :
    (∀ d, State.reset.cfg.txqDepth = some d → State.reset.txq.length < d) ∧
    (∀ d, (queued [] (some 1)).cfg.txqDepth = some d → (queued [] (some 1)).txq.length < d) := by
  refine ⟨fun d h => (by cases h), fun d h => ?_⟩
  cases h
  decide

/-- A queue with room (the case of witness_CommandsQueueTheirFrames), and a full one. -/
theorem witness_CommandsTouchOnlyTheQueue :
    commandFrame .cmdRun = some runFrame ∧
    (∀ d, State.reset.cfg.txqDepth = some d → State.reset.txq.length < d) ∧
    (queued [runFrame, runFrame] (some 2)).cfg.txqDepth = some 2 ∧
    2 ≤ (queued [runFrame, runFrame] (some 2)).txq.length :=
  ⟨by decide, witness_CommandsQueueTheirFrames.1, by decide, by decide⟩

theorem witness_SelfCheckNeverDiscards : (next? (exec .cmdRun State.reset)).isSome := by decide

/-- E4's payload. -/
theorem witness_EncodedFramePassesTheValidator :
    (∃ u, exec (.encodePayload payloadRun) State.reset = .next u ∧ u.ret = some runFrame) ∧ State.reset.rxBuf = [] ∧
    payloadRun[0]? = some 0xA5#8 ∧ payloadRun[5]? = some 0x01#8 ∧ payloadRun.length = (0x01#8).toNat + 6 ∧
    shortStatus (runFrame.drop 3) = false := by
  refine ⟨⟨_, rfl, ?_⟩, ?_⟩ <;> decide

theorem witness_OwnEchoIsAcceptedAndIgnored :
    commandFrame .cmdRun = some runFrame ∧ State.reset.rxBuf = [] := by decide

/-- I11, I13, I4: not relevant; a relevant frame of no class; a control report of no class. -/
theorem witness_UnmatchedFramesAreIgnored :
    (∀ x ∈ [((0x63 : Byte), (0x07 : Byte), (0x01 : Byte)), (0x60, 0x06, 0x0A), (0x60, 0x04, 0x7F)],
      [0xA5, 0x00, 0x10, x.1, x.2.1, 0x01, x.2.2, 0x01, 0x99][3]? = some x.1 ∧
      [0xA5, 0x00, 0x10, x.1, x.2.1, 0x01, x.2.2, 0x01, 0x99][4]? = some x.2.1 ∧
      [0xA5, 0x00, 0x10, x.1, x.2.1, 0x01, x.2.2, 0x01, 0x99][6]? = some x.2.2) ∧
    ((0x63 : Byte) ≠ 0x60#8 ∧ (0x63 : Byte) ≠ 0x61#8 ∧ (0x63 : Byte) ≠ 0x62#8 ∧ (0x07 : Byte) ≠ 0x64#8) ∧
    ((0x06 : Byte) ≠ 0x01#8 ∧ (0x06 : Byte) ≠ 0x04#8 ∧ (0x06 : Byte) ≠ 0x05#8 ∧ (0x06 : Byte) ≠ 0x07#8) ∧
    ((0x04 : Byte) = 0x04#8 ∧ (0x7F : Byte) ≠ 0x00#8 ∧ (0x7F : Byte) ≠ 0xFF#8) := by
  refine ⟨?_, by decide, by decide, by decide⟩
  simp

/-- I1, I2, I3, I5. -/
theorem witness_InterpretReportsTheClass :
    ∀ x ∈ [((0x01 : Byte), (0x08 : Byte)), (0x04, 0x00), (0x04, 0xFF), (0x05, 0x00)],
      [0xA5, 0x00, 0x10, 0x60, x.1, 0x01, x.2, 0x01, 0x1F][3]? = some 0x60#8 ∧
      [0xA5, 0x00, 0x10, 0x60, x.1, 0x01, x.2, 0x01, 0x1F][4]? = some x.1 ∧
      [0xA5, 0x00, 0x10, 0x60, x.1, 0x01, x.2, 0x01, 0x1F][6]? = some x.2 ∧
      [0xA5, 0x00, 0x10, 0x60, x.1, 0x01, x.2, 0x01, 0x1F][7]? = some 0x01 := by simp

theorem witness_ClassRowsReport : statusFrame[6]? = some 0x01 ∧ statusFrame[7]? = some 0x00 := by decide

/-- Every run byte of a frame of 13 bytes or more; the rows and INTERPRET. -/
theorem witness_StatusReportPublishes :
    (∀ r ∈ [(0x00 : Byte), 0x01, 0x02, 0xFF],
      (statusFrame.set 6 r)[6]? = some r ∧ (statusFrame.set 6 r)[9]? = some 0x01 ∧
      (statusFrame.set 6 r)[10]? = some 0xF4 ∧ (statusFrame.set 6 r)[11]? = some 0x07 ∧
      (statusFrame.set 6 r)[12]? = some 0x08) ∧
    Instr.rxStatus62 statusFrame ∈ [Instr.rxStatus60 statusFrame, .rxStatus61 statusFrame, .rxStatus62 statusFrame] ∧
    (Instr.interpret statusFrame = .interpret statusFrame ∧ statusFrame[4]? = some 0x07#8 ∧
      statusFrame[3]? = some 0x60#8) := by decide

/-- The longest frames that are too short. -/
theorem witness_FramesTooShortForTheirRuleFault :
    shortFrame.length = 12 ∧ shortFrame.length < 13 ∧ shortFrame[4]? = some 0x07#8 ∧ shortFrame[3]? = some 0x60#8 ∧
    (shortFrame.take 6).length < 7 ∧ (shortFrame.take 7).length < 8 ∧ (shortFrame.take 4).length < 5 := by decide

/-- An accepted frame of a class, and one of none. -/
theorem witness_InterpretIsTheClassOfTheTable :
    statusFrame.shaped = true ∧ decode (.accepted statusFrame) = .instr (.rxStatus60 statusFrame) ∧
    Frame.shaped [0xA5, 0x00, 0x60, 0x10, 0x64, 0x00, 0x01, 0x79] = true ∧
    decode (.accepted [0xA5, 0x00, 0x60, 0x10, 0x64, 0x00, 0x01, 0x79]) = .ignored := by decide

/-- A SCHED, a byte that completes a frame which is no status report, and an unmonitored status report. -/
theorem witness_ObservablesHaveOneWriter :
    (next? (exec (.sched 7) State.reset)).isSome ∧ statusReports State.reset.rxBuf (.sched 7) = [] ∧
    (next? (exec (.feed 0x26) (st (runFrame.take 11)))).isSome ∧
    acceptedBy (st (runFrame.take 11)).rxBuf 0x26 = some (runFrame.drop 3) ∧
    statusReports (st (runFrame.take 11)).rxBuf (.feed 0x26) = [] ∧
    statusReports State.reset.rxBuf (.interpret statusFrame) = [statusFrame] ∧
    (next? (exec (.rxStatus60 statusFrame)
      { State.reset with cfg := { Config.defaults with monRun := false, monPower := false, monSpeed := false } })).isSome ∧
    Instr.rxStatus60 statusFrame ≠ .reset := by decide

theorem witness_StepRunsTheDecodedOperation :
    { State.reset with inputs := [.coded runFrame] }.inputs = .coded runFrame :: [] ∧
    decode (.coded runFrame) = .instr .cmdRun := by decide

/-- Nothing waits; bytes that are no row, and no bytes; command codes 0, 9, 10 and 15. -/
theorem witness_StepAtTheInputPorts :
    State.reset.inputs = [] ∧
    { State.reset with inputs := [.link [0x12, 0xFF] 7] }.inputs = .link (0x12 :: [0xFF]) 7 :: [] ∧
    readLink (0x12 :: [0xFF]) 7 = none ∧
    { State.reset with inputs := [.coded [0x12]] }.inputs = .coded (0x12 :: []) :: [] ∧ readRow (0x12 :: []) = none ∧
    { State.reset with inputs := [.coded []] }.inputs = .coded [] :: [] ∧
    ∀ op ∈ [(0 : BitVec 4), 9, 10, 15], { State.reset with inputs := [.cmd op 0 0] }.inputs = .cmd op 0 0 :: [] := by
  decide

theorem witness_DecodeOfEncodeIsTheOperation :
    (Instr.rxStatus60 statusFrame).wf = true ∧ (Instr.frame 1 2 3 4 [5] 6 7).wf = true := by decide

theorem witness_CommandFramesReadBackAsTheirCommand :
    commandFrame (.cmdSelExt 32) = commandFrame (.cmdSelExt 0) ∧ commandFrame .cmdRun = some runFrame := by decide

theorem witness_EveryStepKeepsTheInvariant :
    { State.reset with inputs := [.coded runFrame] }.inv = true ∧
    (next? (step { State.reset with inputs := [.coded runFrame] })).isSome := by decide

/-- The longest buffer the invariant allows. -/
theorem witness_ReceiveBufferNeverOverflows : (st (cand 255 256)).inv = true ∧ (st (cand 255 256)).rxBuf.length = 265 := by
  have hl : (cand 255 256).length = 265 := cand_length 255 256
  refine ⟨?_, hl⟩
  have hw : Memory.wf (cand 255 256) = true := by
    rw [Memory.wf, hl]
    rfl
  change (Memory.wf (cand 255 256) && _ && _) = true
  rw [hw]
  rfl

theorem witness_ParametersAreNeverWritten : (next? (exec (.rxByte 0xFF 7) State.reset)).isSome := by decide

theorem witness_BehaviourDependsOnRegistersOnly :
    { State.reset with out := [.txFlush] }.cfg = State.reset.cfg ∧
    { State.reset with out := [.txFlush] }.registers = State.reset.registers ∧
    { State.reset with out := [.txFlush] } ≠ State.reset := by
  refine ⟨rfl, rfl, ?_⟩
  decide

/-- A status report that completes and a short one, interpreted and completed on the link. -/
theorem witness_OnlyAShortStatusReportStops :
    statusReports State.reset.rxBuf (.interpret statusFrame) = [statusFrame] ∧ statusFrame.length = 15 ∧
    statusReports State.reset.rxBuf (.interpret shortFrame) = [shortFrame] ∧
    statusReports ([0xFF, 0x00, 0xFF] ++ shortFrame.dropLast) (.rxByte 0x22 7) = [shortFrame] ∧
    shortFrame.length = 12 ∧
    (Instr.interpret statusFrame).wf = true ∧ (Instr.interpret shortFrame).wf = true ∧
    (next? (exec (.interpret statusFrame) State.reset)).isSome ∧
    fault? (exec (.interpret shortFrame) State.reset) = some .interpShortFrame := by decide

theorem witness_EnqueueCommutesWithReception : State.reset.cfg.txqDepth = none := by decide

end Sys2Proof.Tests
end

section
/-! PROOFS. The Frame Validator's family: the header positions, the bytes that are kept, and the one result that ends a
FEED (40_frame_validator R122 to R127, R133). -/

namespace Sys2Proof.Machine

/-! ### FEED at a header position -/

/-- A FEED that judges one header position keeps the wanted byte and rejects every other one. -/
theorem exec_feed_of_headerByte {s : State} {b want : Byte} {c : Cause}
    (h : feedByte b s = .next (headerByte want c b (s.withRx (s.rxBuf ++ [b])))) :
    exec (.feed b) s =
      if b = want then .next { s with rxBuf := s.rxBuf ++ [b], out := s.out ++ [.result .incomplete] }
      else .next { s with rxBuf := [], out := s.out ++ [.result (.rejected c)] } := by
  change feedByte b s = _
  rw [h, headerByte]
  split <;> rfl

/-- Settles O4: each of the positions 0 to 3 is judged by `headerByte` with its own byte and cause. -/
theorem feedChecksHeaderByPosition : Obligations.FeedChecksHeaderByPosition := by
  intro s b
  refine ⟨fun h => ?_, fun h => ?_, fun h => ?_, fun h => ?_⟩ <;>
    exact exec_feed_of_headerByte (by simp [feedByte, judge, Memory.append, h])

/-! ### FEED on a byte that is kept -/

/-- A byte that stays in the buffer completes no frame. -/
theorem acceptedBy_eq_none_of_kept {m : List Byte} {b : Byte} (h : nextBuffer m b = m ++ [b]) :
    acceptedBy m b = none := by
  rcases ha : acceptedBy m b with _ | f
  · rfl
  · simp [nextBuffer_of_accepted ha] at h

/-- FEED on a byte that the state-machine view keeps reports Incomplete and changes nothing but the buffer. -/
theorem exec_feed_of_kept {s : State} {b : Byte} (h : nextBuffer s.rxBuf b = s.rxBuf ++ [b]) :
    exec (.feed b) s = .next { s with rxBuf := s.rxBuf ++ [b], out := s.out ++ [.result .incomplete] } := by
  have hv : verdict s.rxBuf b = [.result .incomplete] := if_pos (by simp [h])
  change feedByte b s = _
  rw [feedByte_of_none (acceptedBy_eq_none_of_kept h), h, hv]

/-- Past the header the buffer keeps every byte up to the length byte, and then every byte before the required total
(R126, R127). -/
theorem nextBuffer_eq_append {m : List Byte} (b : Byte) (h4 : 4 ≤ m.length)
    (h : m.length ≤ 8 ∨ m.length + 1 < (byteAt m 8).toNat + 11) : nextBuffer m b = m ++ [b] := by
  unfold nextBuffer
  rw [if_neg (by omega), if_neg (by omega), if_neg (by omega), if_neg (by omega)]
  split
  · rfl
  · rename_i h8
    exact if_pos (h.resolve_left h8)

/-- Settles O5: positions 4 to 8 are past the header and before the end of the length byte. -/
theorem feedAcceptsReservedPositions : Obligations.FeedAcceptsReservedPositions :=
  fun _ b h4 h8 => exec_feed_of_kept (nextBuffer_eq_append b h4 (.inl h8))

/-- Settles O6: the byte at index 8 is the one the required total is computed from. -/
theorem feedKeepsAcceptingUntilTheTotal : Obligations.FeedKeepsAcceptingUntilTheTotal := by
  intro s b len h9 hlen htotal
  have hbyte : byteAt s.rxBuf 8 = len := by simp [byteAt, List.getD, hlen]
  exact exec_feed_of_kept (nextBuffer_eq_append b (by omega) (.inr (by rwa [hbyte])))

/-! ### The result that ends a FEED -/

theorem isReport_result (r : FeedResult) : isReport (.result r) = false := rfl

/-- Settles O9, from what a FEED that does not stop can do: its earlier events are reports and diagnostics, no
results, and its result is Incomplete exactly when the buffer keeps the byte. -/
theorem feedClearsAfterEitherOutcome : Obligations.FeedClearsAfterEitherOutcome := by
  intro s t b h
  change feedByte b s = .next t at h
  rcases hs : feedStops s.rxBuf b with _ | _
  · obtain ⟨o1, o2, o3, evs, r, hevs, hr, hkeeps, _, _, _, _, hfeed⟩ := feedByte_effect s.cfg hs
    obtain rfl := Host.Outcome.next.inj ((hfeed s rfl rfl).symm.trans h)
    refine ⟨evs, r, rfl, fun r' hmem => ?_, fun hi => hkeeps (hr.mp hi), fun hi => ?_⟩
    · rcases hevs _ hmem with hrep | ⟨x, y, hdiag⟩
      · simp [isReport_result] at hrep
      · cases hdiag
    · by_contra hne
      exact hi (hr.mpr hne)
  · simp [feedByte_stops hs] at h

end Sys2Proof.Machine
end

section
/-! PROOFS. The Transmit Scheduler's family: the stamp of a received byte and the enqueue of a frame
(41_transmit_scheduler R151, R152, R156). -/

namespace Sys2Proof.Machine

/-! ### RXBYTE -/

theorem exec_rxByte (b : Byte) (t : Nat) (s : State) : exec (.rxByte b t) s = exec (.feed b) (s.stampBusy t) := rfl

/-- Settles O18: the state FEED starts from is `stampBusy`, whose stamp is the sample modulo `2 ^ CLK_W`. -/
theorem rxByteStampsAndFeeds : Obligations.RxByteStampsAndFeeds := exec_rxByte

/-! ### ENQ -/

theorem exec_enq (f : Frame) (s : State) : exec (.enq f) s = .next (enqueue f s) := rfl

/-- Settles O22: a queue with room is one that is not full, where `enqueue` only writes the queue. -/
theorem enqAppendsAtTheBack : Obligations.EnqAppendsAtTheBack := by
  intro f s hroom
  have hfull : s.txqFull = false := txqFull_eq_false_iff.mpr hroom
  rw [exec_enq, enqueue_of_room hfull, State.withTxq]

end Sys2Proof.Machine
end

section
/-! PROOFS. The Command Encoder's family: the trailer by the sum of the payload, and the frame each command queues
(42_command_encoder R181, R184 to R193). -/

namespace Sys2Proof.Machine

/-! ### The frame a command queues -/

/-- The trailer takes bits 15 to 8 and 7 to 0 of the sum, so the reduction modulo 65536 does not show in it (R84, R181). -/
theorem trailer_checksum (p : List Byte) :
    trailer (checksum p) = [BitVec.ofNat 8 (sumBytes p / 256), BitVec.ofNat 8 (sumBytes p % 256)] := by
  have hhi : hi (checksum p) = BitVec.ofNat 8 (sumBytes p / 256) :=
    BitVec.eq_of_toNat_eq (by simp only [hi_toNat, checksum_toNat, BitVec.toNat_ofNat]; omega)
  have hlo : lo (checksum p) = BitVec.ofNat 8 (sumBytes p % 256) :=
    BitVec.eq_of_toNat_eq (by simp only [lo_toNat, checksum_toNat, BitVec.toNat_ofNat]; omega)
  rw [trailer, hhi, hlo]

/-- Where the queue has room, a command whose payload `p` has the sum `c` queues preamble, `p` and the two bytes of `c`,
and changes nothing else (R183). -/
theorem exec_command_of_room {s : State} (hroom : ∀ d, s.cfg.txqDepth = some d → s.txq.length < d) {i : Instr}
    {p : List Byte} (hframe : commandFrame i = some (encodeFrame p)) {c : Nat} (hsum : sumBytes p = c) :
    exec i s = .next { s with txq := s.txq ++
      [[0xFF, 0x00, 0xFF] ++ p ++ [BitVec.ofNat 8 (c / 256), BitVec.ofNat 8 (c % 256)]] } := by
  subst hsum
  rw [exec_command hframe, enqueue_of_room (txqFull_eq_false_iff.mpr hroom), encodeFrame, trailer_checksum]
  rfl

/-! ### The sums of the payloads with arguments -/

theorem sumBytes_payloadSelLocal (n : Byte) : sumBytes (payloadSelLocal n) = 0x11B + (n.toNat + 1) % 256 := by
  simp [payloadSelLocal, selLocalByte, sumBytes]
  omega

theorem sumBytes_payloadSelExt (n : Byte) : sumBytes (payloadSelExt n) = 0x13E + (n.toNat * 8) % 256 := by
  simp [payloadSelExt, selExtByte, sumBytes]
  omega

theorem sumBytes_payloadFlow (f : Byte) : sumBytes (payloadFlow f) = 0x1E8 + f.toNat := by
  simp [payloadFlow, sumBytes]
  omega

theorem sumBytes_payloadSave (n : Byte) (v : Word16) :
    sumBytes (payloadSave n v) = 0x11D + (0x26 + n.toNat) % 256 + v.toNat / 256 + v.toNat % 256 := by
  simp [payloadSave, saveByte, sumBytes]
  omega

theorem sumBytes_payloadSpeed (r : Word16) :
    sumBytes (payloadSpeed r) = 0x1E9 + r.toNat / 256 + r.toNat % 256 := by
  simp [payloadSpeed, sumBytes]
  omega

/-! ### The ten commands -/

/-- Settles O34: the five payloads are literals, of the sums written here. -/
theorem fixedCommandsQueueTheirFrames : Obligations.FixedCommandsQueueTheirFrames := by
  intro s hroom
  refine ⟨?reqStatus, ?forceLocal, ?forceRemote, ?run, ?stop⟩
  case reqStatus => exact exec_command_of_room hroom (p := payloadReqStatus) rfl (c := 0x11C) rfl
  case forceLocal => exact exec_command_of_room hroom (p := payloadForceLocal) rfl (c := 0x11A) rfl
  case forceRemote => exact exec_command_of_room hroom (p := payloadForceRemote) rfl (c := 0x219) rfl
  case run => exact exec_command_of_room hroom (p := payloadRun) rfl (c := 0x126) rfl
  case stop => exact exec_command_of_room hroom (p := payloadStop) rfl (c := 0x120) rfl

/-- Settles O35: a payload is fixed bytes and the substituted one, so its sum is a base and that byte. FLOW's byte is the
argument itself, which the statement writes as the byte of its number. -/
theorem byteArgumentCommandsQueueTheirFrames : Obligations.ByteArgumentCommandsQueueTheirFrames := by
  intro n s hroom
  refine ⟨?selLocal, ?selExt, ?flow⟩
  case selLocal => exact exec_command_of_room hroom rfl (sumBytes_payloadSelLocal n)
  case selExt => exact exec_command_of_room hroom rfl (sumBytes_payloadSelExt n)
  case flow =>
    have hbyte : BitVec.ofNat 8 n.toNat = n := by simp
    intro x
    rw [hbyte]
    exact exec_command_of_room hroom rfl (sumBytes_payloadFlow n)

/-- Settles O36: the two bytes of the 16-bit argument enter the payload and its sum, high byte first. -/
theorem wordArgumentCommandsQueueTheirFrames : Obligations.WordArgumentCommandsQueueTheirFrames := by
  intro n v s hroom
  refine ⟨?save, ?speed⟩
  case save => exact exec_command_of_room hroom rfl (sumBytes_payloadSave n v)
  case speed => exact exec_command_of_room hroom rfl (sumBytes_payloadSpeed v)

end Sys2Proof.Machine
end

section
/-! PROOFS. The Packet Interpreter's family: INTERPRET of a relevant frame dispatches on the opcode, and the report-only
classes emit their one diagnostic (43_packet_interpreter R211 to R215). -/

namespace Sys2Proof.Machine

/-! ### The dispatch of INTERPRET -/

/-- The three response identifiers make a frame relevant, whatever its opcode (R211). -/
theorem relevant_of_responseId {f3 : Byte} (f4 : Byte) (h : f3 = 0x60#8 ∨ f3 = 0x61#8 ∨ f3 = 0x62#8) :
    relevant f3 f4 = true := by
  rcases h with rfl | rfl | rfl <;> rfl

/-- On a relevant frame INTERPRET is the class its opcode names, or nothing (R212 to R219). -/
theorem exec_interpret_of_relevant {f : Frame} {f3 f4 : Byte} (s : State) (h3 : f[3]? = some f3)
    (h4 : f[4]? = some f4) (hrel : relevant f3 f4 = true) :
    exec (.interpret f) s =
      if f4 = 0x01#8 then extProg f s
      else if f4 = 0x04#8 then controlReport f s
      else if f4 = 0x05#8 then localProg f s
      else if f4 = 0x07#8 then statusReport f s
      else .next s := by
  change interpretFrame f s = _
  rw [interpretFrame, withFrameByte_some _ h3, withFrameByte_some _ h4, if_neg (by simp [hrel])]

/-! ### What each report-only class does -/

theorem extProg_of_programId {f : Frame} {b : Byte} (s : State) (h : f[6]? = some b) :
    extProg f s = .next { s with out := s.out ++ [.diag .info .extProg (.byte b)] } :=
  withFrameByte_some _ h

theorem localProg_of_programId {f : Frame} {b : Byte} (s : State) (h : f[7]? = some b) :
    localProg f s = .next { s with out := s.out ++ [.diag .info .localProg (.byte b)] } :=
  withFrameByte_some _ h

theorem controlReport_of_zero {f : Frame} (s : State) (h : f[6]? = some 0x00#8) :
    controlReport f s = .next { s with out := s.out ++ [.diag .info .localCtrl .none] } :=
  withFrameByte_some _ h

theorem controlReport_of_ff {f : Frame} (s : State) (h : f[6]? = some 0xFF#8) :
    controlReport f s = .next { s with out := s.out ++ [.diag .info .remoteCtrl .none] } :=
  withFrameByte_some _ h

/-- Settles O42: the response identifier makes the frame relevant, the opcode picks the class, and the class reports. -/
theorem interpretReportsTheClass : Obligations.InterpretReportsTheClass := by
  intro f f3 f4 f6 f7 s h3 h4 h6 h7 hid
  have hdispatch := exec_interpret_of_relevant s h3 h4 (relevant_of_responseId f4 hid)
  refine ⟨?extProg, ?localCtrl, ?remoteCtrl, ?localProg⟩
  case extProg =>
    rintro rfl
    exact hdispatch.trans (extProg_of_programId s h6)
  case localCtrl =>
    rintro rfl rfl
    exact hdispatch.trans (controlReport_of_zero s h6)
  case remoteCtrl =>
    rintro rfl rfl
    exact hdispatch.trans (controlReport_of_ff s h6)
  case localProg =>
    rintro rfl
    exact hdispatch.trans (localProg_of_programId s h7)

end Sys2Proof.Machine
end

section
/-! PROOFS. The reset family: no operation reads the ports, so a run of operations behaves the same from any two states
with the same parameters and registers, and RESET makes the registers the same (70_reset_and_hazards R280, R282). -/

namespace Sys2Proof.Machine

/-! ### The same behaviour -/

/-- Two outcomes of the same behaviour complete with the same registers and new events, or stop alike. -/
theorem sameBehaviour_cases {o1 o2 : List Event} {r1 r2 : Result} (h : sameBehaviour o1 o2 r1 r2) :
    (∃ t1 t2 evs, r1 = .next t1 ∧ r2 = .next t2 ∧ t1.registers = t2.registers ∧
      t1.out = o1 ++ evs ∧ t2.out = o2 ++ evs) ∨
    (∃ f, r1 = .fault f ∧ r2 = .fault f) ∨ ∃ x, r1 = .refused x ∧ r2 = .refused x := by
  match r1, r2, h with
  | .next t1, .next t2, ⟨hreg, evs, h1, h2⟩ => exact .inl ⟨t1, t2, evs, rfl, rfl, hreg, h1, h2⟩
  | .fault f, .fault _, rfl => exact .inr (.inl ⟨f, rfl, rfl⟩)
  | .refused x, .refused _, rfl => exact .inr (.inr ⟨x, rfl, rfl⟩)

/-- Events both traces had gained already count among the new ones from an earlier start. -/
theorem sameBehaviour_of_append {o1 o2 evs : List Event} {r1 r2 : Result}
    (h : sameBehaviour (o1 ++ evs) (o2 ++ evs) r1 r2) : sameBehaviour o1 o2 r1 r2 := by
  obtain ⟨t1, t2, more, rfl, rfl, hreg, h1, h2⟩ | ⟨f, rfl, rfl⟩ | ⟨x, rfl, rfl⟩ := sameBehaviour_cases h
  · exact ⟨hreg, evs ++ more, by rw [h1, List.append_assoc], by rw [h2, List.append_assoc]⟩
  · rfl
  · rfl

/-- Two outcomes with the same registers and no new event. -/
theorem sameBehaviour_of_silent {o1 o2 : List Event} {t1 t2 : State} (hreg : t1.registers = t2.registers)
    (h1 : t1.out = o1) (h2 : t2.out = o2) : sameBehaviour o1 o2 (.next t1) (.next t2) :=
  ⟨hreg, [], by rw [h1, List.append_nil], by rw [h2, List.append_nil]⟩

/-! ### Meanings that read the registers only -/

/-- From states with the same parameters and registers the meaning shows the same behaviour, whatever the ports hold. -/
def ReadsRegistersOnly (k : State → Result) : Prop :=
  ∀ s1 s2 : State, s1.cfg = s2.cfg → s1.registers = s2.registers → sameBehaviour s1.out s2.out (k s1) (k s2)

/-- The state with other contents at its ports: the trace, the returned frame and the inputs. -/
def State.withPorts (s : State) (out : List Event) (ret : Option Frame) (inputs : List Transaction) : State :=
  { s with out := out, ret := ret, inputs := inputs }

theorem eq_withPorts_of_registers {s1 s2 : State} (hcfg : s1.cfg = s2.cfg) (hreg : s1.registers = s2.registers) :
    s2 = s1.withPorts s2.out s2.ret s2.inputs := by
  cases s1
  cases s2
  simp_all [State.registers, State.withPorts]

namespace ReadsRegistersOnly

/-- It is enough to compare a state with itself at other ports, where parameters and registers are the same terms. -/
theorem of_withPorts {k : State → Result}
    (h : ∀ s out ret inputs, sameBehaviour s.out out (k s) (k (s.withPorts out ret inputs))) :
    ReadsRegistersOnly k := by
  intro s1 s2 hcfg hreg
  rw [eq_withPorts_of_registers hcfg hreg]
  exact h s1 s2.out s2.ret s2.inputs

theorem next : ReadsRegistersOnly .next :=
  of_withPorts fun _ _ _ _ => sameBehaviour_of_silent rfl rfl rfl

theorem emit (e : Event) : ReadsRegistersOnly fun s => .next (s.emit e) :=
  of_withPorts fun _ _ _ _ => ⟨rfl, [e], rfl, rfl⟩

theorem ite {p : Prop} [Decidable p] {k l : State → Result} (hk : ReadsRegistersOnly k) (hl : ReadsRegistersOnly l) :
    ReadsRegistersOnly fun s => if p then k s else l s := by
  by_cases hp : p
  · simpa only [if_pos hp] using hk
  · simpa only [if_neg hp] using hl

theorem withFrameByte {f : Frame} {i : Nat} {k : Byte → State → Result} (h : ∀ b, ReadsRegistersOnly (k b)) :
    ReadsRegistersOnly fun s => withFrameByte f i fun b => k b s := by
  rcases hb : f[i]? with _ | b
  · simp only [withFrameByte_none _ hb]
    exact fun _ _ _ _ => rfl
  · simpa only [withFrameByte_some _ hb] using h b

/-- The second meaning starts from the same parameters and registers, and its events come after those of the first. -/
theorem andThen {k l : State → Result} (hk : ReadsRegistersOnly k) (hcfg : ∀ {s t}, k s = .next t → t.cfg = s.cfg)
    (hl : ReadsRegistersOnly l) : ReadsRegistersOnly fun s => andThen (k s) l := by
  intro s1 s2 hc hr
  obtain ⟨t1, t2, evs, e1, e2, hreg, h1, h2⟩ | ⟨f, e1, e2⟩ | ⟨x, e1, e2⟩ := sameBehaviour_cases (hk s1 s2 hc hr)
  · have hsecond := hl t1 t2 (by rw [hcfg e1, hcfg e2, hc]) hreg
    rw [h1, h2] at hsecond
    simpa only [e1, e2, andThen_next] using sameBehaviour_of_append hsecond
  · simp only [e1, e2]
    rfl
  · simp only [e1, e2]
    rfl

end ReadsRegistersOnly

/-! ### The Packet Interpreter -/

theorem extProg_readsRegistersOnly (f : Frame) : ReadsRegistersOnly (extProg f) :=
  .withFrameByte fun _ => .emit _

theorem localProg_readsRegistersOnly (f : Frame) : ReadsRegistersOnly (localProg f) :=
  .withFrameByte fun _ => .emit _

theorem localCtrl_readsRegistersOnly : ReadsRegistersOnly localCtrl := .emit _

theorem remoteCtrl_readsRegistersOnly : ReadsRegistersOnly remoteCtrl := .emit _

theorem controlReport_readsRegistersOnly (f : Frame) : ReadsRegistersOnly (controlReport f) :=
  .withFrameByte fun _ => .ite localCtrl_readsRegistersOnly (.ite remoteCtrl_readsRegistersOnly .next)

theorem statusReport_readsRegistersOnly (f : Frame) : ReadsRegistersOnly (statusReport f) :=
  .of_withPorts fun s out ret inputs => by
    rcases Nat.lt_or_ge f.length 13 with hshort | hlong
    · rw [statusReport_short s hshort, statusReport_short _ hshort]
      rfl
    · rw [statusReport_long s hlong, statusReport_long _ hlong]
      exact ⟨rfl, _, rfl, rfl⟩

theorem interpretFrame_readsRegistersOnly (f : Frame) : ReadsRegistersOnly (interpretFrame f) :=
  .withFrameByte fun _ => .withFrameByte fun _ =>
    .ite .next <| .ite (extProg_readsRegistersOnly f) <| .ite (controlReport_readsRegistersOnly f) <|
      .ite (localProg_readsRegistersOnly f) <| .ite (statusReport_readsRegistersOnly f) .next

/-! ### Reception -/

theorem feedByte_readsRegistersOnly (b : Byte) : ReadsRegistersOnly (feedByte b) :=
  .of_withPorts fun s out ret inputs => by
    rcases hs : feedStops s.rxBuf b with _ | _
    · obtain ⟨_, _, _, evs, r, _, _, _, _, _, _, _, hfeed⟩ := feedByte_effect s.cfg hs
      rw [hfeed s rfl rfl, hfeed (s.withPorts out ret inputs) rfl rfl]
      exact ⟨rfl, evs ++ [.result r], List.append_assoc _ _ _, List.append_assoc _ _ _⟩
    · rw [feedByte_stops hs, feedByte_stops (s := s.withPorts out ret inputs) hs]
      rfl

theorem stampBusy_readsRegistersOnly (t : Nat) : ReadsRegistersOnly fun s => .next (s.stampBusy t) :=
  .of_withPorts fun _ _ _ _ => sameBehaviour_of_silent rfl rfl rfl

theorem receiveByte_readsRegistersOnly (b : Byte) (t : Nat) : ReadsRegistersOnly (receiveByte b t) :=
  (stampBusy_readsRegistersOnly t).andThen (fun h => by cases h; rfl) (feedByte_readsRegistersOnly b)

theorem receiveAll_readsRegistersOnly (l : List (Byte × Nat)) : ReadsRegistersOnly (receiveAll l) :=
  .of_withPorts fun s out ret inputs => by
    rcases hs : receiveStops s.rxBuf (l.map (·.1)) with _ | _
    · obtain ⟨_, _, _, evs, _, _, _, _, _, hreceive⟩ := receiveAll_effect s.cfg l hs
      rw [hreceive s rfl rfl, hreceive (s.withPorts out ret inputs) rfl rfl]
      exact ⟨rfl, evs, rfl, rfl⟩
    · rw [receiveAll_stops l hs, receiveAll_stops l (s := s.withPorts out ret inputs) hs]
      rfl

/-! ### The transmit side -/

theorem enqueue_readsRegistersOnly (f : Frame) : ReadsRegistersOnly fun s => .next (enqueue f s) :=
  .of_withPorts fun s out ret inputs => by
    rcases h : s.txqFull with _ | _
    · rw [enqueue_of_room h, enqueue_of_room (s := s.withPorts out ret inputs) h]
      exact sameBehaviour_of_silent rfl rfl rfl
    · rw [enqueue_of_full h, enqueue_of_full (s := s.withPorts out ret inputs) h]
      exact ⟨rfl, _, rfl, rfl⟩

theorem schedule_readsRegistersOnly (t : Nat) : ReadsRegistersOnly fun s => .next (schedule t s) :=
  .of_withPorts fun s out ret inputs => by
    rcases hq : s.txq with _ | ⟨f, rest⟩
    · rw [schedule_empty t hq, schedule_empty (s := s.withPorts out ret inputs) t hq]
      exact sameBehaviour_of_silent rfl rfl rfl
    · rcases flagAfterGate_cases s.cfg.clkW t s.lastActivity s.schedState with ⟨hquiet, _⟩ | ⟨hbusy, _⟩
      · rw [schedule_release hquiet hq, schedule_release (s := s.withPorts out ret inputs) hquiet hq]
        exact ⟨rfl, _, rfl, rfl⟩
      · rw [schedule_busy hbusy, schedule_busy (s := s.withPorts out ret inputs) hbusy]
        exact sameBehaviour_of_silent rfl rfl rfl

theorem command_readsRegistersOnly (p : List Byte) : ReadsRegistersOnly (command p) := by
  simpa only [← command_eq] using enqueue_readsRegistersOnly (encodeFrame p)

theorem encodePayload_readsRegistersOnly (p : List Byte) : ReadsRegistersOnly (execEncodePayload p) :=
  .of_withPorts fun _ _ _ _ => sameBehaviour_of_silent rfl rfl rfl

/-! ### Every operation, and every run of operations -/

theorem reset_readsRegistersOnly : ReadsRegistersOnly execReset :=
  .of_withPorts fun _ _ _ _ => sameBehaviour_of_silent rfl rfl rfl

/-- No operation reads the ports (R20, R282). -/
theorem exec_readsRegistersOnly (i : Instr) : ReadsRegistersOnly (exec i) := by
  cases i with
  | frame => exact receiveAll_readsRegistersOnly _
  | cmdReqStatus | cmdForceLocal | cmdForceRemote | cmdRun | cmdStop | cmdSelLocal | cmdSelExt | cmdSave | cmdSpeed
  | cmdFlow => exact command_readsRegistersOnly _
  | rxExtProg60 f | rxExtProg61 f | rxExtProg62 f => exact extProg_readsRegistersOnly f
  | rxLocalCtrl60 | rxLocalCtrl61 | rxLocalCtrl62 => exact localCtrl_readsRegistersOnly
  | rxRemoteCtrl60 | rxRemoteCtrl61 | rxRemoteCtrl62 => exact remoteCtrl_readsRegistersOnly
  | rxLocalProg60 f | rxLocalProg61 f | rxLocalProg62 f => exact localProg_readsRegistersOnly f
  | rxStatus60 f | rxStatus61 f | rxStatus62 f => exact statusReport_readsRegistersOnly f
  | reset => exact reset_readsRegistersOnly
  | feed b => exact feedByte_readsRegistersOnly b
  | rxByte b t => exact receiveByte_readsRegistersOnly b t
  | sched t => exact schedule_readsRegistersOnly t
  | enq f => exact enqueue_readsRegistersOnly f
  | encodePayload p => exact encodePayload_readsRegistersOnly p
  | interpret f => exact interpretFrame_readsRegistersOnly f
  | tick drained t =>
    exact (receiveAll_readsRegistersOnly drained).andThen (fun h => (receiveAll_receives h).cfg)
      (schedule_readsRegistersOnly t)

theorem enqueue_cfg (f : Frame) (s : State) : (enqueue f s).cfg = s.cfg := by
  rcases enqueue_cases f s with ⟨_, h⟩ | ⟨_, h⟩ <;> rw [h]

theorem schedule_cfg (t : Nat) (s : State) : (schedule t s).cfg = s.cfg := by
  rcases schedule_cases t s with ⟨_, h, _⟩ | ⟨_, _, _, _, h⟩ <;> rw [h]

/-- No operation writes the parameters (R20). -/
theorem exec_cfg {i : Instr} {s t : State} (h : exec i s = .next t) : t.cfg = s.cfg := by
  rcases exec_effect h with ⟨_, rfl⟩ | ⟨_, _, hr⟩ | ⟨_, _, _, x, u, _, _, hr, rfl⟩ | ⟨_, _, f, _, rfl⟩ |
    ⟨_, _, _, f, rfl⟩
  · rfl
  · exact hr.cfg
  · rw [schedule_cfg, hr.cfg]
  · exact enqueue_cfg f s
  · rfl

theorem runOps_readsRegistersOnly (ops : List Instr) : ReadsRegistersOnly (runOps ops) := by
  induction ops with
  | nil => exact .next
  | cons i rest ih => exact (exec_readsRegistersOnly i).andThen exec_cfg ih

/-! ### RESET -/

/-- RESET takes away every difference between two states but the parameters and the ports (R280). -/
theorem clearRegisters_registers (s1 s2 : State) : s1.clearRegisters.registers = s2.clearRegisters.registers := rfl

/-- Settles O3: after RESET the registers are the same, the parameters still are, and a run of operations reads nothing
else. -/
theorem afterResetThePastIsForgotten : Obligations.AfterResetThePastIsForgotten :=
  fun s1 s2 ops hcfg =>
    runOps_readsRegistersOnly ops s1.clearRegisters s2.clearRegisters hcfg (clearRegisters_registers s1 s2)

end Sys2Proof.Machine
end

section
/-! PROOFS. The whole machine: no operation reads the ports, none writes the parameters, and every step keeps the
invariant (10_state R20 to R24; 20_memory R63). -/

namespace Sys2Proof.Machine

/-- Settles O58: no operation reads anything but the registers and the parameters. -/
theorem behaviourDependsOnRegistersOnly : Obligations.BehaviourDependsOnRegistersOnly :=
  exec_readsRegistersOnly

/-- Settles O57, by what an operation can do. -/
theorem parametersAreNeverWritten : Obligations.ParametersAreNeverWritten :=
  fun _ _ _ => exec_cfg

/-! ### The invariant -/

theorem State.inv_iff {s : State} :
    s.inv = true ↔ Memory.wf s.rxBuf = true ∧ s.lastActivity < 2 ^ s.cfg.clkW ∧
      ∀ d, s.cfg.txqDepth = some d → s.txq.length ≤ d := by
  unfold State.inv
  rcases s.cfg.txqDepth with _ | d <;> simp [and_assoc]

theorem clearRegisters_keeps_inv (s : State) : s.clearRegisters.inv = true :=
  State.inv_iff.mpr ⟨Memory.clear_wf, Nat.two_pow_pos _, fun _ _ => Nat.zero_le _⟩

theorem Receives.keeps_inv {times : List Nat} {silent : Bool} {s t : State} (h : Receives times silent s t)
    (hs : s.inv = true) : t.inv = true := by
  obtain ⟨hbuf, htimer, hqueue⟩ := State.inv_iff.mp hs
  refine State.inv_iff.mpr ⟨h.buffer hbuf, ?_, by rwa [h.cfg, h.txq]⟩
  rw [h.cfg]
  rcases h.timer with ⟨hkept, _⟩ | ⟨x, _, hstamp, _⟩
  · rwa [hkept]
  · rw [hstamp]
    exact sample_lt _ _

theorem schedule_keeps_inv (t : Nat) {s : State} (hs : s.inv = true) : (schedule t s).inv = true := by
  obtain ⟨hbuf, htimer, hqueue⟩ := State.inv_iff.mp hs
  rcases schedule_cases t s with ⟨q, h, _⟩ | ⟨f, rest, hq, _, h⟩
  · rw [h]
    exact State.inv_iff.mpr ⟨hbuf, htimer, hqueue⟩
  · rw [h]
    refine State.inv_iff.mpr ⟨hbuf, sample_lt _ _, fun d hd => ?_⟩
    have hlen := hqueue d hd
    rw [hq, List.length_cons] at hlen
    exact (Nat.le_succ _).trans hlen

theorem enqueue_keeps_inv (f : Frame) {s : State} (hs : s.inv = true) : (enqueue f s).inv = true := by
  obtain ⟨hbuf, htimer, hqueue⟩ := State.inv_iff.mp hs
  rcases enqueue_cases f s with ⟨hroom, h⟩ | ⟨_, h⟩
  · rw [h]
    refine State.inv_iff.mpr ⟨hbuf, htimer, fun d hd => ?_⟩
    simpa using txqFull_eq_false_iff.mp hroom d hd
  · rw [h]
    exact hs

theorem exec_keeps_inv {i : Instr} {s t : State} (h : exec i s = .next t) (hs : s.inv = true) : t.inv = true := by
  rcases exec_effect h with ⟨_, rfl⟩ | ⟨_, _, hr⟩ | ⟨_, _, _, x, u, _, _, hr, rfl⟩ | ⟨_, _, f, _, rfl⟩ |
    ⟨_, _, _, f, rfl⟩
  · exact clearRegisters_keeps_inv s
  · exact hr.keeps_inv hs
  · exact schedule_keeps_inv x (hr.keeps_inv hs)
  · exact enqueue_keeps_inv f hs
  · exact hs

/-- Settles O55: a step changes only the inputs, which the invariant does not read, or runs an operation. -/
theorem everyStepKeepsTheInvariant : Obligations.EveryStepKeepsTheInvariant := by
  intro s t hs h
  rcases step_cases h with ⟨l, rfl⟩ | ⟨i, l, hi⟩
  · exact hs
  · exact exec_keeps_inv (s := s.withInputs l) hi hs

/-- Settles O54: an empty buffer, a zero stamp and an empty queue. -/
theorem resetStateMeetsTheInvariant : Obligations.ResetStateMeetsTheInvariant :=
  State.inv_iff.mpr ⟨State.reset_wf, Nat.two_pow_pos _, fun _ _ => Nat.zero_le _⟩

/-- Settles O56: a candidate that is still incomplete has at most `255 + 10` bytes. -/
theorem receiveBufferNeverOverflows : Obligations.ReceiveBufferNeverOverflows := by
  intro s hs
  have hlen : s.rxBuf.length ≤ 265 := Memory.wf_length (State.inv_iff.mp hs).1
  refine ⟨hlen, fun b => ?_⟩
  rw [List.length_append, List.length_singleton, Config.rxBufCap]
  omega

end Sys2Proof.Machine
end

section
/-! PROOFS. Runs of the Transmit Scheduler: the order of the frames written, and how long the link was silent
(41_transmit_scheduler R153, R162, R164; 10_state R26). -/

namespace Sys2Proof.Machine

/-! ### The frames written and still waiting -/

theorem Receives.writes_eq {times : List Nat} {silent : Bool} {s t : State} (h : Receives times silent s t) :
    writes t.out = writes s.out := by
  obtain ⟨evs, hout, hevs⟩ := h.out
  rw [hout, writes_append, writes_of_fromReceiver hevs, List.append_nil]

/-- What SCHED takes from the front of the queue it writes (R154). -/
theorem schedule_writes (t : Nat) (s : State) :
    ∃ sent, writes (schedule t s).out = writes s.out ++ sent ∧ s.txq = sent ++ (schedule t s).txq := by
  rcases schedule_cases t s with ⟨q, h, _⟩ | ⟨f, rest, hq, _, h⟩
  · exact ⟨[], by rw [h, List.append_nil], by rw [h, List.nil_append]⟩
  · exact ⟨[f], by rw [h]; simp [writes], by rw [h, hq, List.singleton_append]⟩

/-- One operation: what was queued and what it enqueues is what it writes and what then waits. -/
theorem exec_fifo {i : Instr} {s t : State} (hi : i ≠ .reset) (hdepth : s.cfg.txqDepth = none)
    (h : exec i s = .next t) :
    ∃ sent, writes t.out = writes s.out ++ sent ∧ s.txq ++ enqueuedBy i = sent ++ t.txq := by
  rcases exec_effect h with ⟨hreset, _⟩ | ⟨_, hnone, hr⟩ | ⟨_, hnone, _, x, u, _, _, hr, rfl⟩ |
    ⟨_, _, f, hone, rfl⟩ | ⟨_, _, hnone, f, rfl⟩
  · exact absurd hreset hi
  · exact ⟨[], by rw [hr.writes_eq, List.append_nil], by rw [hnone, hr.txq, List.append_nil, List.nil_append]⟩
  · obtain ⟨sent, hout, hq⟩ := schedule_writes x u
    exact ⟨sent, by rw [hout, hr.writes_eq], by rw [hnone, List.append_nil, ← hr.txq, hq]⟩
  · rw [enqueue_of_room (txqFull_of_unbounded hdepth)]
    exact ⟨[], by simp, by simp [hone]⟩
  · exact ⟨[], by simp, by simp [hnone]⟩

/-- Settles O29, by induction on the operations: what the first one writes goes before what the others write. -/
theorem framesLeaveInFifoOrder : Obligations.FramesLeaveInFifoOrder := by
  intro ops
  induction ops with
  | nil =>
    rintro s t - - h
    obtain rfl := Host.Outcome.next.inj h
    exact ⟨[], by simp, by simp⟩
  | cons i rest ih =>
    intro s t hreset hdepth h
    obtain ⟨u, hu, hrest⟩ := andThen_eq_next.mp h
    obtain ⟨hi, hreset⟩ := List.ne_and_not_mem_of_not_mem_cons hreset
    obtain ⟨sent₁, hout₁, hq₁⟩ := exec_fifo hi.symm hdepth hu
    obtain ⟨sent₂, hout₂, hq₂⟩ := ih u t hreset (by rw [exec_cfg hu, hdepth]) hrest
    refine ⟨sent₁ ++ sent₂, by rw [hout₂, hout₁, List.append_assoc], ?_⟩
    calc s.txq ++ (i :: rest).flatMap enqueuedBy
        = s.txq ++ enqueuedBy i ++ rest.flatMap enqueuedBy := by rw [List.flatMap_cons, List.append_assoc]
      _ = sent₁ ++ (u.txq ++ rest.flatMap enqueuedBy) := by rw [hq₁, List.append_assoc]
      _ = sent₁ ++ sent₂ ++ t.txq := by rw [hq₂, List.append_assoc]

/-! ### The stamp, the flag and the samples still to come -/

/-- The state has been overtaken by none of the samples still to come: the stamp is not before `lo` and not after any of
them, and QUIET means that more than QUIET_MS lie between the stamp and each of them. -/
structure InTime (lo : Nat) (later : List Nat) (s : State) : Prop where
  notBefore : lo ≤ s.lastActivity
  notAfter : ∀ x ∈ later, s.lastActivity ≤ x
  silent : s.schedState = .quiet → ∀ x ∈ later, s.lastActivity + 100 < x

theorem InTime.mono {lo : Nat} {later sooner : List Nat} {s : State} (h : InTime lo sooner s)
    (hsub : later ⊆ sooner) : InTime lo later s :=
  ⟨h.notBefore, fun x hx => h.notAfter x (hsub hx), fun hq x hx => h.silent hq x (hsub hx)⟩

/-- A stamp with BUSY at the time `x`. -/
theorem InTime.of_stamp {lo x : Nat} {later : List Nat} {s : State} (hstamp : s.lastActivity = x)
    (hbusy : s.schedState = .busy) (hlo : lo ≤ x) (hle : ∀ y ∈ later, x ≤ y) : InTime lo later s :=
  ⟨hstamp ▸ hlo, hstamp ▸ hle, by simp [hbusy]⟩

/-- Only the stamp and the flag count. -/
theorem InTime.congr {lo : Nat} {later : List Nat} {s t : State} (h : InTime lo later s)
    (hstamp : t.lastActivity = s.lastActivity) (hflag : t.schedState = s.schedState) : InTime lo later t :=
  ⟨hstamp ▸ h.notBefore, hstamp ▸ h.notAfter, by rw [hstamp, hflag]; exact h.silent⟩

theorem sample_of_lt {w t : Nat} (h : t < 2 ^ w) : sample w t = t := Nat.mod_eq_of_lt h

/-- Without a wrap the gate opens exactly when more than QUIET_MS have passed. -/
theorem gateOpen_of_le {w t t0 : Nat} (h : t0 ≤ t) (hw : t < 2 ^ w) : gateOpen w t t0 = true ↔ t0 + 100 < t := by
  have helapsed := elapsed_of_le (w := w) h (by omega)
  rw [Nat.mod_eq_of_lt (by omega)] at helapsed
  rw [gateOpen, decide_eq_true_eq, helapsed, Config.quietMs]
  omega

theorem Receives.inTime {lo : Nat} {times later : List Nat} {silent : Bool} {s t : State}
    (h : Receives times silent s t) (hsorted : (times ++ later).Pairwise (· ≤ ·))
    (hwrap : ∀ x ∈ times ++ later, x < 2 ^ s.cfg.clkW) (hs : InTime lo (times ++ later) s) : InTime lo later t := by
  rcases h.timer with ⟨hstamp, hflag⟩ | ⟨x, hx, hstamp, hbusy⟩
  · exact (hs.mono (List.subset_append_right _ _)).congr hstamp hflag
  · have hmem : x ∈ times ++ later := List.mem_append_left _ hx
    rw [sample_of_lt (hwrap x hmem)] at hstamp
    exact .of_stamp hstamp hbusy (hs.notBefore.trans (hs.notAfter x hmem)) fun y hy =>
      (List.pairwise_append.mp hsorted).2.2 x hx y hy

theorem schedule_inTime {lo x : Nat} {later : List Nat} {s : State} (hsorted : (x :: later).Pairwise (· ≤ ·))
    (hwrap : x < 2 ^ s.cfg.clkW) (hs : InTime lo (x :: later) s) : InTime lo later (schedule x s) := by
  have hpast : s.lastActivity ≤ x := hs.notAfter x List.mem_cons_self
  have hnext : ∀ y ∈ later, x ≤ y := (List.pairwise_cons.mp hsorted).1
  have hlater : InTime lo later s := hs.mono (List.subset_cons_self _ _)
  rcases schedule_cases x s with ⟨q, h, ⟨_, hflag⟩ | ⟨hq, hbusy, _⟩⟩ | ⟨f, rest, _, _, h⟩
  · rw [h]
    refine ⟨hlater.notBefore, hlater.notAfter, fun hquiet => ?_⟩
    rcases flagAfterGate_cases s.cfg.clkW x s.lastActivity s.schedState with ⟨_, hold | hopen⟩ | ⟨hclosed, _⟩
    · exact hlater.silent hold
    · have hsilence := (gateOpen_of_le hpast hwrap).mp hopen
      exact fun y hy => hsilence.trans_le (hnext y hy)
    · cases hclosed.symm.trans (hflag.symm.trans hquiet)
  · rw [h]
    exact hlater.congr rfl (hq.trans hbusy.symm)
  · rw [h]
    exact .of_stamp (sample_of_lt hwrap) rfl (hs.notBefore.trans hpast) hnext

/-- One operation whose samples come before those still to come. RESET puts the stamp back to 0. -/
theorem exec_inTime {i : Instr} {lo : Nat} {later : List Nat} {s t : State} (h : exec i s = .next t)
    (hreset : i = .reset → lo = 0) (hsorted : (opTimes i ++ later).Pairwise (· ≤ ·))
    (hwrap : ∀ x ∈ opTimes i ++ later, x < 2 ^ s.cfg.clkW) (hs : InTime lo (opTimes i ++ later) s) :
    InTime lo later t := by
  have hlater : InTime lo later s := hs.mono (List.subset_append_right _ _)
  rcases exec_effect h with ⟨hi, rfl⟩ | ⟨_, _, hr⟩ | ⟨_, _, times, x, u, _, htimes, hr, rfl⟩ | ⟨_, _, f, _, rfl⟩ |
    ⟨_, _, _, f, rfl⟩
  · exact .of_stamp rfl rfl (hreset hi).le fun y _ => Nat.zero_le y
  · exact hr.inTime hsorted hwrap hs
  · rw [htimes, List.append_assoc, List.singleton_append] at hsorted hwrap hs
    have hx : x < 2 ^ u.cfg.clkW := by
      rw [hr.cfg]
      exact hwrap x (by simp)
    exact schedule_inTime (List.pairwise_append.mp hsorted).2.1 hx (hr.inTime hsorted hwrap hs)
  · rcases enqueue_cases f s with ⟨_, he⟩ | ⟨_, he⟩ <;>
    · rw [he]
      exact hlater.congr rfl rfl
  · exact hlater.congr rfl rfl

/-- A run of operations with samples that never go back and no wrap. -/
theorem runOps_inTime {ops : List Instr} {lo : Nat} {later : List Nat} {s t : State} (h : runOps ops s = .next t)
    (hreset : .reset ∈ ops → lo = 0) (hsorted : (ops.flatMap opTimes ++ later).Pairwise (· ≤ ·))
    (hwrap : ∀ x ∈ ops.flatMap opTimes ++ later, x < 2 ^ s.cfg.clkW)
    (hs : InTime lo (ops.flatMap opTimes ++ later) s) : InTime lo later t := by
  induction ops generalizing s with
  | nil =>
    obtain rfl := Host.Outcome.next.inj h
    exact hs
  | cons i rest ih =>
    obtain ⟨u, hu, hrest⟩ := andThen_eq_next.mp h
    rw [List.flatMap_cons, List.append_assoc] at hsorted hwrap hs
    have hinTime := exec_inTime hu (fun hi => hreset (hi ▸ List.mem_cons_self)) hsorted hwrap hs
    refine ih hrest (fun hmem => hreset (List.mem_cons_of_mem _ hmem)) (List.pairwise_append.mp hsorted).2.1 ?_ hinTime
    rw [exec_cfg hu]
    exact fun x hx => hwrap x (List.mem_append_right _ hx)

theorem runOps_cfg {ops : List Instr} {s t : State} (h : runOps ops s = .next t) : t.cfg = s.cfg :=
  runOps_keeps (P := fun u => u.cfg = s.cfg) (fun _ _ _ _ hu hv => (exec_cfg hv).trans hu) rfl h

/-- In a sorted list that ends in `t`, no sample is after `t`. -/
theorem le_last_of_sorted {l : List Nat} {t : Nat} (h : (l ++ [t]).Pairwise (· ≤ ·)) : ∀ x ∈ l ++ [t], x ≤ t := by
  intro x hx
  rcases List.mem_append.mp hx with hx | hx
  · exact (List.pairwise_append.mp h).2.2 x hx t (List.mem_singleton_self t)
  · exact (List.mem_singleton.mp hx).le

/-- Settles O31: BUSY is in time for every later sample, and a run keeps that. -/
theorem quietFlagMeansASilentLink : Obligations.QuietFlagMeansASilentLink := by
  intro ops t0 t s v hbusy hstamp hrun hquiet hsorted hwrap
  obtain ⟨hfirst, hsorted⟩ := List.pairwise_cons.mp hsorted
  have hstart : InTime 0 (ops.flatMap opTimes ++ [t]) s :=
    .of_stamp rfl hbusy (Nat.zero_le _) fun x hx => hstamp.trans (hfirst x hx)
  have hend : InTime 0 [t] v :=
    runOps_inTime hrun (fun _ => rfl) hsorted (fun x hx => (le_last_of_sorted hsorted x hx).trans_lt hwrap) hstart
  have hsilence := hend.silent hquiet t (List.mem_singleton_self t)
  rw [← runOps_cfg hrun] at hwrap
  exact gateOpen_iff.mp ((gateOpen_of_le (by omega) hwrap).mpr hsilence)

/-- A SCHED that writes found QUIET or an open gate, and stamps with BUSY (R154). -/
theorem schedule_of_writes {t : Nat} {s : State} (h : writes (schedule t s).out ≠ writes s.out) :
    (s.schedState = .quiet ∨ gateOpen s.cfg.clkW t s.lastActivity = true) ∧
      (schedule t s).lastActivity = sample s.cfg.clkW t ∧ (schedule t s).schedState = .busy := by
  rcases schedule_cases t s with ⟨q, he, _⟩ | ⟨f, rest, _, hopen, he⟩
  · rw [he] at h
    exact absurd rfl h
  · rw [he]
    exact ⟨hopen, rfl, rfl⟩

/-- Settles O30: the first write stamps `t1` with BUSY; from there the stamp is never before `t1`, and the second write
finds QUIET or an open gate, both more than QUIET_MS after the stamp. -/
theorem transmissionsAreMoreThanTheQuietWindowApart : Obligations.TransmissionsAreMoreThanTheQuietWindowApart := by
  intro ops t1 t2 s u v w hfirst hwrote hrun hreset hsecond hwrote' hsorted hwrap
  obtain rfl := Host.Outcome.next.inj hfirst
  obtain rfl := Host.Outcome.next.inj hsecond
  obtain ⟨_, hstamp, hbusy⟩ := schedule_of_writes hwrote
  obtain ⟨hopen, _, _⟩ := schedule_of_writes hwrote'
  obtain ⟨hle, hsorted⟩ := List.pairwise_cons.mp hsorted
  have ht : t1 ≤ t2 := hle t2 (by simp)
  rw [sample_of_lt (by omega)] at hstamp
  rw [← schedule_cfg t1 s] at hwrap
  have hend : InTime t1 [t2] v :=
    runOps_inTime hrun (fun hmem => absurd hmem hreset) hsorted
      (fun x hx => (le_last_of_sorted hsorted x hx).trans_lt hwrap) (.of_stamp hstamp hbusy le_rfl hle)
  have hsilence : v.lastActivity + 100 < t2 := by
    rcases hopen with hquiet | hgate
    · exact hend.silent hquiet t2 (List.mem_singleton_self t2)
    · rw [← runOps_cfg hrun] at hwrap
      exact (gateOpen_of_le (hend.notAfter t2 (List.mem_singleton_self t2)) hwrap).mp hgate
  have := hend.notBefore
  omega

end Sys2Proof.Machine
end

section
/-! PROOFS. FEED at the required total: the two sums decide between acceptance and the checksum rejection
(40_frame_validator R128 to R130). -/

namespace Sys2Proof.Machine

/-! ### Sums and trailers -/

/-- The reduction modulo 65536 does not show in 16 bits (R84). -/
theorem checksum_eq_ofNat (p : List Byte) : checksum p = BitVec.ofNat 16 (p.map BitVec.toNat).sum :=
  BitVec.eq_of_toNat_eq (by rw [checksum_toNat, BitVec.toNat_ofNat, sumBytes_eq_sum])

theorem checksum_eq_be16_iff {p : List Byte} {high low : Byte} :
    checksum p = be16 high low ↔ (p.map BitVec.toNat).sum % 65536 = high.toNat * 256 + low.toNat := by
  rw [← BitVec.toNat_inj, checksum_toNat, be16_toNat, sumBytes_eq_sum]

/-- The trailer of a payload, from its sum reduced modulo 65536 (R84, R181). -/
theorem trailer_checksum_of_mod (p : List Byte) :
    trailer (checksum p) = [BitVec.ofNat 8 ((p.map BitVec.toNat).sum % 65536 / 256),
      BitVec.ofNat 8 ((p.map BitVec.toNat).sum % 65536 % 256)] := by
  rw [trailer, hi, lo, checksum_toNat, sumBytes_eq_sum]

theorem checksum_cons (b : Byte) (p : List Byte) : checksum (b :: p) = b.setWidth 16 + checksum p := by
  apply BitVec.eq_of_toNat_eq
  simp [sumBytes]

/-- A running 16-bit sum is the checksum. -/
theorem foldl_add_eq_checksum (p : List Byte) (acc : Word16) :
    p.foldl (fun acc x => acc + x.setWidth 16) acc = acc + checksum p := by
  induction p generalizing acc with
  | nil => exact (BitVec.add_zero acc).symm
  | cons b p ih => rw [List.foldl_cons, ih, checksum_cons, BitVec.add_assoc]

theorem be16_eq_setWidth (high low : Byte) : be16 high low = high.setWidth 16 * 256 + low.setWidth 16 := by
  apply BitVec.eq_of_toNat_eq
  have := high.isLt
  have := low.isLt
  simp
  omega

/-! ### The byte that reaches the required total -/

section
variable {m : List Byte} {l : Nat} (b : Byte)

theorem calcSum_of_total (h : m.length = l + 10) : calcSum (m ++ [b]) l = checksum ((m.drop 3).take (l + 6)) := by
  rw [calcSum, slice_append_left (by omega), slice, show l + 9 - 3 = l + 6 by omega]

theorem recvSum_of_total (h : m.length = l + 10) : recvSum (m ++ [b]) l = be16 (byteAt m (l + 9)) b := by
  rw [recvSum, Memory.read, Memory.read, byteAt_append_left (by omega), byteAt_append_right (by omega)]
  simp [h, byteAt]

/-- At the total the validator accepts the candidate less its preamble, if the sums agree (R128, R130). -/
theorem acceptedBy_of_total (hl : (byteAt m 8).toNat = l) (h : m.length = l + 10) :
    acceptedBy m b = if checksum ((m.drop 3).take (l + 6)) = be16 (byteAt m (l + 9)) b then some ((m ++ [b]).drop 3)
      else none := by
  have hslice : slice 3 (l + 11) (m ++ [b]) = (m ++ [b]).drop 3 := List.take_of_length_le (by simp; omega)
  rw [← calcSum_of_total b h, ← recvSum_of_total b h, ← hslice]
  simp only [acceptedBy, hl]
  exact if_congr ⟨fun hwhole => hwhole.2.2, fun hsum => ⟨by omega, by simp; omega, hsum⟩⟩ rfl rfl

end

/-- At the total the buffer is cleared and a byte that accepts no frame is reported with both sums (R129). -/
theorem feedByte_of_total {s : State} {b : Byte} {l : Nat} (hl : (byteAt s.rxBuf 8).toNat = l)
    (h : s.rxBuf.length = l + 10) :
    feedByte b s =
      if checksum ((s.rxBuf.drop 3).take (l + 6)) = be16 (byteAt s.rxBuf (l + 9)) b then
        accept ((s.rxBuf ++ [b]).drop 3) { s with rxBuf := s.rxBuf ++ [b] }
      else .next { s with
        rxBuf := []
        out := s.out ++ [.diag .warn .cksumMismatch
          (.sums (checksum ((s.rxBuf.drop 3).take (l + 6))) (be16 (byteAt s.rxBuf (l + 9)) b)),
          .result (.rejected .cksum)] } := by
  have hacc := acceptedBy_of_total b hl h
  split
  · rename_i hsum
    rw [if_pos hsum] at hacc
    exact feedByte_of_some hacc
  · rename_i hsum
    rw [if_neg hsum] at hacc
    have hnext : nextBuffer s.rxBuf b = [] := by
      unfold nextBuffer
      rw [if_neg (by omega), if_neg (by omega), if_neg (by omega), if_neg (by omega), if_neg (by omega),
        if_neg (by omega)]
    have hverdict : verdict s.rxBuf b = [.diag .warn .cksumMismatch
        (.sums (calcSum (s.rxBuf ++ [b]) l) (recvSum (s.rxBuf ++ [b]) l)), .result (.rejected .cksum)] := by
      unfold verdict
      rw [if_neg (by simp [hnext]), if_neg (by omega), if_neg (by omega), if_neg (by omega), if_neg (by omega), hl]
    rw [feedByte_of_none hacc, hnext, hverdict, calcSum_of_total b h, recvSum_of_total b h]

theorem byteAt_of_getElem? {m : List Byte} {i : Nat} {b : Byte} (h : m[i]? = some b) : byteAt m i = b := by
  simp [byteAt, h]

theorem exec_feed (b : Byte) (s : State) : exec (.feed b) s = feedByte b s := rfl

theorem exec_interpret (f : Frame) (s : State) : exec (.interpret f) s = interpretFrame f s := rfl

/-- Settles O7: at the total, with sums that differ. -/
theorem feedRejectsAWrongChecksum : Obligations.FeedRejectsAWrongChecksum := by
  intro s b len high hlen htotal hhigh hsum
  rw [exec_feed, feedByte_of_total (by rw [byteAt_of_getElem? hlen]) htotal, byteAt_of_getElem? hhigh,
    if_neg (mt checksum_eq_be16_iff.mp hsum), checksum_eq_ofNat]
  rfl

/-- Acceptance after an INTERPRET that completes (R130, R132). -/
theorem accept_of_interpreted {f : Frame} {s t : State} (h : interpretFrame f s = .next t) :
    accept f s = .next
      { t with rxBuf := [], out := t.out ++ [.diag .info .frameRx (.bytes f), .result (.accepted f)] } := by
  rw [accept, h, andThen_next]
  simp [State.emit, State.withRx, Memory.clear]

/-- Settles O8: at the total, with sums that agree. -/
theorem feedAcceptsARightChecksum : Obligations.FeedAcceptsARightChecksum := by
  intro s t b len high hlen htotal hhigh hsum hinterpret
  rw [exec_feed, feedByte_of_total (by rw [byteAt_of_getElem? hlen]) htotal, byteAt_of_getElem? hhigh,
    if_pos (checksum_eq_be16_iff.mpr hsum)]
  exact accept_of_interpreted hinterpret

/-- Settles O10, from what a FEED that does not stop can do. -/
theorem feedCompletesUnlessShortStatus : Obligations.FeedCompletesUnlessShortStatus := by
  intro s b
  rw [exec_feed]
  split
  · rename_i hstops
    exact feedByte_stops hstops
  · rename_i hstops
    obtain ⟨_, _, _, _, _, _, _, _, _, _, _, hsilent, hfeed⟩ := feedByte_effect s.cfg (Bool.eq_false_iff.mpr hstops)
    refine ⟨_, hfeed s rfl rfl, rfl, rfl, fun hnone => ?_⟩
    obtain ⟨rfl, rfl, rfl⟩ := hsilent (by simp [hnone])
    exact ⟨rfl, rfl, rfl⟩

/-- Settles O11: the running sum is the checksum, and only a byte whose sums differ ends with the checksum rejection. -/
theorem completionDecidedByRunningSum : Obligations.CompletionDecidedByRunningSum := by
  intro s t b len high hlen htotal hhigh h
  rw [exec_feed, feedByte_of_total (by rw [byteAt_of_getElem? hlen]) htotal, byteAt_of_getElem? hhigh] at h
  rw [foldl_add_eq_checksum, zero_add, ← be16_eq_setWidth]
  split at h
  · rename_i hsum
    obtain ⟨u, hu, _⟩ := andThen_eq_next.mp h
    obtain rfl := Host.Outcome.next.inj ((accept_of_interpreted hu).symm.trans h)
    simp [hsum]
  · rename_i hsum
    obtain rfl := Host.Outcome.next.inj h
    simpa using hsum

/-! ### Stray preamble bytes -/

theorem exec_feed_ff_of_empty {s : State} (h : s.rxBuf = []) :
    exec (.feed 0xFF) s = .next { s with rxBuf := [0xFF], out := s.out ++ [.result .incomplete] } := by
  simpa [h] using (feedChecksHeaderByPosition s 0xFF).1 (by simp [h])

theorem exec_feed_of_empty {s : State} {b : Byte} (h : s.rxBuf = []) (hb : b ≠ 0xFF#8) :
    exec (.feed b) s = .next { s with rxBuf := [], out := s.out ++ [.result (.rejected .hdr0)] } := by
  simpa [hb] using (feedChecksHeaderByPosition s b).1 (by simp [h])

theorem exec_feed_of_single {s : State} {b : Byte} (h : s.rxBuf = [0xFF]) (hb : b ≠ 0x00#8) :
    exec (.feed b) s = .next { s with rxBuf := [], out := s.out ++ [.result (.rejected .hdr1)] } := by
  simpa [hb] using (feedChecksHeaderByPosition s b).2.1 (by simp [h])

/-- Pairs of `FF` at an idle validator: kept, then rejected. -/
theorem runOps_feed_ff_pairs (k : Nat) {s : State} (h : s.rxBuf = []) :
    runOps (List.replicate (2 * k) (.feed 0xFF)) s = .next
      { s with rxBuf := []
               out := s.out ++ (List.replicate k [Event.result .incomplete, .result (.rejected .hdr1)]).flatten } := by
  induction k generalizing s with
  | zero =>
    rw [← h]
    simp
  | succ k ih =>
    rw [show 2 * (k + 1) = 2 * k + 1 + 1 by omega, List.replicate_succ, List.replicate_succ, runOps_cons,
      exec_feed_ff_of_empty h, andThen_next, runOps_cons, exec_feed_of_single rfl (by decide), andThen_next, ih rfl]
    simp [List.replicate_succ]

theorem runOps_feed_ff_odd (k : Nat) {s : State} (h : s.rxBuf = []) :
    runOps (List.replicate (2 * k + 1) (.feed 0xFF)) s = .next
      { s with rxBuf := [0xFF]
               out := s.out ++ (List.replicate k [Event.result .incomplete, .result (.rejected .hdr1)]).flatten ++
                 [.result .incomplete] } := by
  rw [List.replicate_succ', runOps_append, runOps_feed_ff_pairs k h, andThen_next, runOps_cons,
    exec_feed_ff_of_empty rfl, andThen_next, runOps_nil]

/-- A header that comes after one stray `FF` is out of step and lost, up to its own last `FF`. -/
theorem runOps_feed_header_of_single {s : State} (h : s.rxBuf = [0xFF]) :
    runOps [.feed 0xFF, .feed 0x00, .feed 0xFF, .feed 0xA5] s = .next
      { s with rxBuf := []
               out := s.out ++ [.result (.rejected .hdr1), .result (.rejected .hdr0), .result .incomplete,
                 .result (.rejected .hdr1)] } := by
  rw [runOps_cons, exec_feed_of_single h (by decide), andThen_next, runOps_cons,
    exec_feed_of_empty rfl (by decide), andThen_next, runOps_cons, exec_feed_ff_of_empty rfl, andThen_next,
    runOps_cons, exec_feed_of_single rfl (by decide), andThen_next, runOps_nil]
  simp

/-- Settles O12: pairs by induction, then one `FF` more, then the header out of step. -/
theorem strayPreambleBytesGoInPairs : Obligations.StrayPreambleBytesGoInPairs := fun k s h =>
  have heven := runOps_feed_ff_pairs k h
  have hodd := runOps_feed_ff_odd k h
  have hheader := runOps_feed_header_of_single (s := { s with rxBuf := [0xFF], out := _ }) rfl
  ⟨_, _, _, heven, rfl, rfl, hodd, rfl, rfl, hheader, rfl, rfl⟩

end Sys2Proof.Machine
end

section
/-! PROOFS. The arrival of a whole frame at an idle receiver: every byte but the last is kept, and the last one decides
(30_encoding R80 to R86; 40_frame_validator R132, R133; 42_command_encoder R195; 70_reset_and_hazards R293, R296). -/

namespace Sys2Proof.Machine

/-! ### A candidate that stays plausible and incomplete -/

theorem wf_of_append {m l : List Byte} (h : Memory.wf (m ++ l) = true) : Memory.wf m = true := by
  obtain ⟨hheader, htotal⟩ := Memory.wf_iff.mp h
  rw [List.length_append] at hheader htotal
  refine Memory.wf_iff.mpr ⟨?_, ?_⟩
  · calc m.take 4 = ((m ++ l).take 4).take m.length := by rw [List.take_take, Nat.min_comm, ← List.take_take,
          List.take_left]
      _ = Config.linkHeader.take m.length := by rw [hheader, List.take_take, Nat.min_eq_left (by omega)]
  · rcases Nat.lt_or_ge 8 m.length with h8 | h8
    · rw [byteAt_append_left h8] at htotal
      omega
    · exact .inl h8

/-- The validator keeps a byte wherever the candidate stays plausible and incomplete (R122 to R127). -/
theorem nextBuffer_of_wf {m : List Byte} {b : Byte} (h : Memory.wf (m ++ [b]) = true) : nextBuffer m b = m ++ [b] := by
  obtain ⟨hheader, htotal⟩ := Memory.wf_iff.mp h
  rcases m with _ | ⟨x, _ | ⟨y, _ | ⟨z, _ | ⟨w, rest⟩⟩⟩⟩
  case cons.cons.cons.cons =>
    refine nextBuffer_eq_append b (by simp) ?_
    rcases Nat.lt_or_ge 8 (x :: y :: z :: w :: rest).length with h8 | h8
    · rw [byteAt_append_left h8] at htotal
      simp at htotal ⊢
      omega
    · exact .inl h8
  all_goals
    simp [Config.linkHeader] at hheader
    simp [nextBuffer, hheader]

/-- Bytes that keep the candidate plausible and incomplete are all Incomplete. -/
theorem runOps_feeds_of_wf {l : List Byte} {s : State} (h : Memory.wf (s.rxBuf ++ l) = true) :
    runOps (l.map .feed) s = .next
      { s with rxBuf := s.rxBuf ++ l, out := s.out ++ List.replicate l.length (.result .incomplete) } := by
  induction l generalizing s with
  | nil => simp
  | cons b l ih =>
    rw [List.append_cons] at h
    rw [List.map_cons, runOps_cons, exec_feed_of_kept (nextBuffer_of_wf (wf_of_append h)), andThen_next, ih h]
    simp [List.replicate_succ]

/-! ### Bytes with one sample -/

/-- FEED leaves the stamp and the flag alone, so bytes with one sample on a link stamped with it are fed. -/
theorem receiveAll_of_stamped (l : List Byte) (t : Nat) {s : State} (h : s.stampBusy t = s) :
    receiveAll (l.map fun b => (b, t)) s = runOps (l.map .feed) s := by
  induction l generalizing s with
  | nil => rfl
  | cons b l ih =>
    rw [List.map_cons, receiveAll, receiveByte, h, List.map_cons, runOps_cons, exec_feed]
    rcases hu : feedByte b s with u | _ | _
    · refine ih ?_
      have hr := feedByte_receives hu
      have htimer : u.lastActivity = s.lastActivity ∧ u.schedState = s.schedState := by simpa using hr.timer
      have hstamp : sample u.cfg.clkW t = u.lastActivity := by
        rw [hr.cfg, htimer.1]
        exact congrArg State.lastActivity h
      have hbusy : .busy = u.schedState := (congrArg State.schedState h).trans htimer.2.symm
      rw [State.stampBusy, hstamp, hbusy]
    · rfl
    · rfl

/-- Bytes that arrive with one sample stamp the link once and are fed (R151, R152). -/
theorem receiveAll_eq_feeds {l : List Byte} (t : Nat) (s : State) (hl : l ≠ []) :
    receiveAll (l.map fun b => (b, t)) s = runOps (l.map .feed) (s.stampBusy t) := by
  rw [← receiveAll_of_stamped l t (s := s.stampBusy t) rfl]
  rcases l with _ | ⟨b, l⟩
  · exact absurd rfl hl
  · rfl

theorem runOps_rxBytes_of_sample (l : List Byte) (t : Nat) (s : State) :
    runOps (l.map fun b => .rxByte b t) s = receiveAll (l.map fun b => (b, t)) s := by
  rw [← runOps_rxBytes, List.map_map]
  rfl

/-! ### Well-shaped payloads and their frames -/

/-- The layout of an encoder payload: the header byte, and a length byte that counts the length-payload (R86, R195). -/
structure WellShaped (p : List Byte) : Prop where
  header : p[0]? = some 0xA5#8
  length : p.length = (byteAt p 5).toNat + 6

/-- The bytes on the link around a payload, with any trailer (R80, R181). -/
def linkFrame (p : List Byte) (high low : Byte) : List Byte := Config.preamble ++ p ++ [high, low]

theorem linkFrame_length (p : List Byte) (high low : Byte) : (linkFrame p high low).length = p.length + 5 := by
  simp [linkFrame, Config.preamble]

theorem encodeFrame_eq_linkFrame (p : List Byte) :
    encodeFrame p = linkFrame p (hi (checksum p)) (lo (checksum p)) := rfl

/-- A frame on the link less its last byte is still plausible and incomplete. -/
theorem wf_of_wellShaped {p : List Byte} (hp : WellShaped p) (high : Byte) :
    Memory.wf (Config.preamble ++ p ++ [high]) = true := by
  obtain ⟨hheader, hlength⟩ := hp
  rcases p with _ | ⟨x, p⟩
  · simp at hheader
  obtain rfl : x = 0xA5#8 := by simpa using hheader
  have h5 : byteAt (Config.preamble ++ (0xA5#8 :: p) ++ [high]) 8 = byteAt (0xA5#8 :: p) 5 := by
    rw [byteAt_append_left (by simp [Config.preamble] at hlength ⊢; omega)]
    rfl
  have htake : Config.linkHeader.take (Config.preamble ++ (0xA5#8 :: p) ++ [high]).length = Config.linkHeader :=
    List.take_of_length_le (by simp [Config.linkHeader, Config.preamble])
  refine Memory.wf_iff.mpr ⟨htake.symm, .inr ?_⟩
  rw [h5]
  simp [Config.preamble] at hlength ⊢
  omega

/-- What an idle validator has left of a well-shaped frame before its last byte. -/
def State.beforeLast (s : State) (p : List Byte) (high : Byte) : State :=
  { s with rxBuf := Config.preamble ++ p ++ [high]
           out := s.out ++ List.replicate (p.length + 4) (.result .incomplete) }

theorem runOps_feeds_beforeLast {p : List Byte} (hp : WellShaped p) (high : Byte) {s : State} (hs : s.rxBuf = []) :
    runOps ((Config.preamble ++ p ++ [high]).map .feed) s = .next (s.beforeLast p high) := by
  have hwf : Memory.wf (s.rxBuf ++ (Config.preamble ++ p ++ [high])) = true := by
    rw [hs]
    exact wf_of_wellShaped hp high
  have hlength : (Config.preamble ++ p ++ [high]).length = p.length + 4 := by simp [Config.preamble]
  rw [runOps_feeds_of_wf hwf, hlength, hs, List.nil_append, State.beforeLast]

theorem runOps_feeds_linkFrame {p : List Byte} (hp : WellShaped p) (high low : Byte) {s : State} (hs : s.rxBuf = []) :
    runOps ((linkFrame p high low).map .feed) s = feedByte low (s.beforeLast p high) := by
  have hsplit : linkFrame p high low = Config.preamble ++ p ++ [high] ++ [low] := by simp [linkFrame]
  rw [hsplit, List.map_append, runOps_append, runOps_feeds_beforeLast hp high hs, andThen_next,
    List.map_singleton, runOps_cons, exec_feed]
  rcases feedByte low (s.beforeLast p high) with _ | _ | _ <;> rfl

/-- The last byte of a well-shaped frame: accepted if the trailer is the payload's sum, else rejected with both sums. -/
theorem feedByte_beforeLast {p : List Byte} (hp : WellShaped p) (high low : Byte) (s : State) :
    feedByte low (s.beforeLast p high) =
      if checksum p = be16 high low then
        accept (p ++ [high, low]) { s.beforeLast p high with rxBuf := linkFrame p high low }
      else .next { s with
        rxBuf := []
        out := s.out ++ List.replicate (p.length + 4) (.result .incomplete) ++
          [.diag .warn .cksumMismatch (.sums (checksum p) (be16 high low)), .result (.rejected .cksum)] } := by
  have hlength := hp.length
  have h8 : byteAt (s.beforeLast p high).rxBuf 8 = byteAt p 5 := by
    rw [State.beforeLast, byteAt_append_left (by simp [Config.preamble]; omega)]
    rfl
  have htotal : (s.beforeLast p high).rxBuf.length = (byteAt p 5).toNat + 10 := by
    simp [State.beforeLast, Config.preamble]
    omega
  have hscope : (((s.beforeLast p high).rxBuf.drop 3).take ((byteAt p 5).toNat + 6)) = p := by
    rw [← hlength]
    exact List.take_left
  have hhigh : byteAt (s.beforeLast p high).rxBuf ((byteAt p 5).toNat + 9) = high := by
    rw [State.beforeLast, byteAt_append_right (by simp [Config.preamble]; omega)]
    simp [Config.preamble, hlength, byteAt]
  have hwhole : (s.beforeLast p high).rxBuf ++ [low] = linkFrame p high low := by
    simp [State.beforeLast, linkFrame]
  rw [feedByte_of_total (by rw [h8]) htotal, hscope, hhigh, hwhole]
  rfl

/-- The last byte of a well-shaped frame whose trailer is the payload's sum. -/
theorem feedByte_beforeLast_of_checksum {p : List Byte} (hp : WellShaped p) {ck : Word16} (hck : checksum p = ck)
    (s : State) :
    feedByte (lo ck) (s.beforeLast p (hi ck)) =
      accept (p ++ [hi ck, lo ck]) { s.beforeLast p (hi ck) with rxBuf := linkFrame p (hi ck) (lo ck) } := by
  rw [feedByte_beforeLast hp, if_pos (by rw [hck, be16_hi_lo])]

/-! ### FRAME -/

/-- The bytes a frame's sum covers: header byte, reserved bytes, length byte, length-payload (R84). -/
def sumScope (r0 r1 r2 r3 : Byte) (payload : List Byte) : List Byte :=
  [0xA5, r0, r1, r2, r3, BitVec.ofNat 8 payload.length] ++ payload

theorem sumScope_wellShaped (r0 r1 r2 r3 : Byte) {payload : List Byte} (h : payload.length ≤ 255) :
    WellShaped (sumScope r0 r1 r2 r3 payload) := by
  refine ⟨rfl, ?_⟩
  have hbyte : byteAt (sumScope r0 r1 r2 r3 payload) 5 = BitVec.ofNat 8 payload.length := rfl
  rw [hbyte, BitVec.toNat_ofNat, Nat.mod_eq_of_lt (by omega)]
  rfl

theorem sumScope_length (r0 r1 r2 r3 : Byte) (payload : List Byte) :
    (sumScope r0 r1 r2 r3 payload).length = payload.length + 6 := rfl

theorem linkBytes_eq_linkFrame (r0 r1 r2 r3 : Byte) (payload : List Byte) (ck : Word16) :
    linkBytes r0 r1 r2 r3 payload ck = linkFrame (sumScope r0 r1 r2 r3 payload) (hi ck) (lo ck) := rfl

/-- Settles O14: the layout's bytes, each an RXBYTE, are `receiveAll` of them. -/
theorem frameArrivesByteByByte : Obligations.FrameArrivesByteByByte :=
  fun r0 r1 r2 r3 payload ck t s => (runOps_rxBytes_of_sample (linkBytes r0 r1 r2 r3 payload ck) t s).symm

/-- A well-shaped frame whose bytes arrive with one sample. -/
theorem receiveAll_linkFrame {p : List Byte} (hp : WellShaped p) (high low : Byte) (t : Nat) {s : State}
    (hs : s.rxBuf = []) :
    receiveAll ((linkFrame p high low).map fun b => (b, t)) s =
      feedByte low ((s.stampBusy t).beforeLast p high) := by
  rw [receiveAll_eq_feeds t s (by simp [linkFrame]), runOps_feeds_linkFrame (s := s.stampBusy t) hp high low hs]

theorem exec_frame_eq (r0 r1 r2 r3 : Byte) {payload : List Byte} (ck : Word16) (t : Nat) {s : State}
    (hs : s.rxBuf = []) (hp : payload.length ≤ 255) :
    exec (.frame r0 r1 r2 r3 payload ck t) s =
      feedByte (lo ck) ((s.stampBusy t).beforeLast (sumScope r0 r1 r2 r3 payload) (hi ck)) := by
  rw [← receiveAll_linkFrame (sumScope_wellShaped r0 r1 r2 r3 hp) (hi ck) (lo ck) t hs, ← linkBytes_eq_linkFrame]
  rfl

/-- Settles O15: on the last byte the trailer is the sum of the bytes before it, so the frame is accepted, and INTERPRET
completes, the frame being no short status report. -/
theorem validFrameIsAcceptedOnItsLastByte : Obligations.ValidFrameIsAcceptedOnItsLastByte := by
  intro r0 r1 r2 r3 payload t s hs hp scope ck f pre
  have hlength : f.length = payload.length + 8 := by simp [f, scope]
  refine ⟨hlength, fun hlong => ?_⟩
  obtain ⟨_, _, _, _, _, _, _, _, _, hinterpret⟩ := interpretFrame_effect (by omega) hlong pre.cfg
  have hu := hinterpret pre rfl
  refine ⟨_, hu, ?_⟩
  have hck : checksum (sumScope r0 r1 r2 r3 payload) = ck := checksum_eq_ofNat scope
  rw [exec_frame_eq r0 r1 r2 r3 ck t hs hp,
    feedByte_beforeLast_of_checksum (sumScope_wellShaped r0 r1 r2 r3 hp) hck]
  exact accept_of_interpreted hu

/-- Settles O16: on the last byte the sum of the bytes before it is not the trailer. -/
theorem frameWithAWrongTrailerIsRejected : Obligations.FrameWithAWrongTrailerIsRejected := by
  intro r0 r1 r2 r3 payload ck t s hs hp sum hne
  have hsum : checksum (sumScope r0 r1 r2 r3 payload) = sum := checksum_eq_ofNat _
  rw [exec_frame_eq r0 r1 r2 r3 ck t hs hp, feedByte_beforeLast (sumScope_wellShaped r0 r1 r2 r3 hp),
    if_neg (by rw [hsum, be16_hi_lo]; exact hne.symm), hsum, be16_hi_lo]
  rfl

/-! ### One changed byte -/

theorem sumBytes_set {p : List Byte} {j : Nat} {x : Byte} (y : Byte) (h : p[j]? = some x) :
    sumBytes (p.set j y) + x.toNat = sumBytes p + y.toNat := by
  induction p generalizing j with
  | nil => simp at h
  | cons b p ih =>
    rcases j with _ | j
    · obtain rfl : b = x := by simpa using h
      simp only [List.set_cons_zero, sumBytes]
      omega
    · have := ih (by simpa using h)
      simp only [List.set_cons_succ, sumBytes]
      omega

/-- One changed byte changes the sum by less than 256, so its 16 bits differ (R296). -/
theorem checksum_set_ne {p : List Byte} {j : Nat} {x y : Byte} (h : p[j]? = some x) (hne : y ≠ x) :
    checksum (p.set j y) ≠ checksum p := by
  intro heq
  have hsum := sumBytes_set y h
  have hmod : sumBytes (p.set j y) % 65536 = sumBytes p % 65536 := by
    simpa using congrArg BitVec.toNat heq
  have hbytes : y.toNat ≠ x.toNat := mt BitVec.eq_of_toNat_eq hne
  have := x.isLt
  have := y.isLt
  omega

theorem set_keeps_wellShaped {p : List Byte} {j : Nat} (y : Byte) (hp : WellShaped p) (h0 : j ≠ 0) (h5 : j ≠ 5) :
    WellShaped (p.set j y) := by
  refine ⟨by rw [List.getElem?_set_ne h0, hp.header], ?_⟩
  rw [List.length_set, byteAt, List.getD, List.getElem?_set_ne h5]
  exact hp.length

/-- A valid frame with one byte changed, no header byte and not the length byte, is a frame whose trailer is not its
sum. -/
theorem linkFrame_set {p : List Byte} {high low x y : Byte} {i : Nat} (hp : WellShaped p)
    (hsum : checksum p = be16 high low) (h4 : 4 ≤ i) (h8 : i ≠ 8) (hx : (linkFrame p high low)[i]? = some x)
    (hne : y ≠ x) :
    ∃ p' high' low', (linkFrame p high low).set i y = linkFrame p' high' low' ∧ WellShaped p' ∧
      p'.length = p.length ∧ checksum p' ≠ be16 high' low' := by
  obtain ⟨j, rfl⟩ := Nat.exists_eq_add_of_le' (show 3 ≤ i by omega)
  have hx : (p ++ [high, low])[j]? = some x := hx
  have hset : (linkFrame p high low).set (j + 3) y = Config.preamble ++ (p ++ [high, low]).set j y := rfl
  rw [hset]
  rcases Nat.lt_or_ge j p.length with hj | hj
  · rw [List.getElem?_append_left hj] at hx
    refine ⟨p.set j y, high, low, ?_, set_keeps_wellShaped y hp (by omega) (by omega), List.length_set, ?_⟩
    · rw [List.set_append_left _ _ hj, linkFrame, List.append_assoc]
    · rw [← hsum]
      exact checksum_set_ne hx hne
  · rw [List.getElem?_append_right hj] at hx
    rw [List.set_append_right _ _ hj]
    rcases hk : j - p.length with _ | _ | k
    · obtain rfl : high = x := by simpa [hk] using hx
      refine ⟨p, y, low, by simp [linkFrame], hp, rfl, fun heq => ?_⟩
      exact hne (be16_inj (heq.symm.trans hsum)).1
    · obtain rfl : low = x := by simpa [hk] using hx
      refine ⟨p, high, y, by simp [linkFrame], hp, rfl, fun heq => ?_⟩
      exact hne (be16_inj (heq.symm.trans hsum)).2
    · simp [hk] at hx

/-- Settles O17: the changed frame is still well shaped, with a trailer that is not its sum. -/
theorem singleByteErrorIsDetected : Obligations.SingleByteErrorIsDetected := by
  intro r0 r1 r2 r3 payload i x y t s scope sum good bad hs hp h4 h8 hx hne
  have hgood : good = linkFrame (sumScope r0 r1 r2 r3 payload) (hi (checksum scope)) (lo (checksum scope)) := by
    have := trailer_checksum_of_mod scope
    rw [trailer] at this
    rw [linkFrame, this]
    rfl
  have hscope := sumScope_wellShaped r0 r1 r2 r3 hp
  rw [hgood] at hx
  obtain ⟨p', high, low, hset, hp', hlength, hsum⟩ :=
    linkFrame_set hscope (be16_hi_lo (checksum scope)).symm h4 h8 hx hne
  rw [sumScope_length] at hlength
  have hbad : bad = linkFrame p' high low := by rw [← hset, ← hgood]
  have htrailer : bad.drop (payload.length + 9) = [high, low] := by
    rw [hbad, linkFrame]
    exact List.drop_left' (by simp [Config.preamble, hlength])
  have hcovered : (bad.drop 3).take (payload.length + 6) = p' := by
    rw [hbad, ← hlength]
    exact List.take_left
  refine ⟨high, low, htrailer, ?_⟩
  rw [hcovered, ← checksum_eq_ofNat, runOps_rxBytes_of_sample, hbad, receiveAll_linkFrame hp' high low t hs,
    feedByte_beforeLast hp', if_neg hsum, hlength]
  rfl

/-! ### The block's own frames -/

/-- Settles O39: the trailer ENCODE appends is the sum the validator computes. -/
theorem encodedFramePassesTheValidator : Obligations.EncodedFramePassesTheValidator := by
  intro p len s s' u pkt hs hheader hlen hlength hencode hret hlong
  obtain rfl := Host.Outcome.next.inj hencode
  obtain rfl : encodeFrame p = pkt := Option.some.inj hret
  have hp : WellShaped p := ⟨hheader, by rw [byteAt_of_getElem? hlen, hlength]⟩
  have hdrop : (encodeFrame p).drop 3 = p ++ [hi (checksum p), lo (checksum p)] := rfl
  have hinit : (encodeFrame p).dropLast = Config.preamble ++ p ++ [hi (checksum p)] := by
    rw [encodeFrame_eq_linkFrame, linkFrame]
    simp [List.dropLast_append_of_ne_nil]
  rw [hdrop] at hlong ⊢
  obtain ⟨_, _, _, evs, hevs, _, _, _, _, hinterpret⟩ := interpretFrame_effect (by simp; omega) hlong s.cfg
  have hbefore := runOps_feeds_beforeLast hp (hi (checksum p)) hs
  have hwhole := (runOps_feeds_linkFrame hp (hi (checksum p)) (lo (checksum p)) hs).trans
    ((feedByte_beforeLast_of_checksum hp rfl s).trans (accept_of_interpreted (hinterpret _ rfl)))
  refine ⟨s.beforeLast p (hi (checksum p)), _, evs, hinit ▸ hbefore, rfl, hwhole, rfl, rfl, fun r hr => ?_⟩
  simpa [isReport_result] using hevs _ hr

/-- A command's payload is well shaped, and its address pair makes its frame irrelevant to the interpreter (R87,
R293). -/
theorem commandFrame_cases {i : Instr} {f : Frame} (h : commandFrame i = some f) :
    ∃ p, f = encodeFrame p ∧ WellShaped p ∧ relevant (byteAt p 3) (byteAt p 4) = false := by
  cases i <;> simp only [commandFrame, Option.some.injEq, reduceCtorEq] at h <;> subst h <;>
    exact ⟨_, rfl, ⟨rfl, rfl⟩, rfl⟩

theorem interpretFrame_of_irrelevant {f : Frame} {f3 f4 : Byte} (h3 : f[3]? = some f3) (h4 : f[4]? = some f4)
    (h : relevant f3 f4 = false) (s : State) : interpretFrame f s = .next s := by
  rw [interpretFrame, withFrameByte_some _ h3, withFrameByte_some _ h4, if_pos h]

/-- Settles O40: the echoed frame is accepted, and its response identifier is none of the relevant ones. -/
theorem ownEchoIsAcceptedAndIgnored : Obligations.OwnEchoIsAcceptedAndIgnored := by
  intro i f t s hf hs
  obtain ⟨p, rfl, hp, hirrelevant⟩ := commandFrame_cases hf
  have hlength := hp.length
  have hbyte (k : Nat) (hk : k < 6) :
      (p ++ [hi (checksum p), lo (checksum p)])[k]? = some (byteAt p k) := by
    rw [List.getElem?_append_left (by omega), getElem?_of_byteAt (by omega)]
  have hignored := interpretFrame_of_irrelevant (hbyte 3 (by omega)) (hbyte 4 (by omega)) hirrelevant
  rw [runOps_rxBytes_of_sample, encodeFrame_length, encodeFrame_eq_linkFrame, receiveAll_linkFrame hp _ _ t hs,
    feedByte_beforeLast_of_checksum hp rfl, accept_of_interpreted (hignored _), hs]
  rfl

end Sys2Proof.Machine
end

section
/-! PROOFS. Single operations of the transmit side and of reception: the case table of SCHED, the tick, the queue, and
what each operation shows in the trace (41_transmit_scheduler R151 to R161; 20_memory R64, R72, R73). -/

namespace Sys2Proof.Machine

/-! ### SCHED -/

theorem exec_sched (t : Nat) (s : State) : exec (.sched t) s = .next (schedule t s) := rfl

/-- Settles O20: by the queue and by the flag after the gate. -/
theorem schedFollowsItsCaseTable : Obligations.SchedFollowsItsCaseTable := by
  intro t s elapsedTime
  have hgate : gateOpen s.cfg.clkW t s.lastActivity = true ↔ 100 < elapsedTime := gateOpen_iff
  rw [exec_sched]
  rcases hq : s.txq with _ | ⟨f, rest⟩
  · rw [schedule_empty t hq, hq, flagAfterGate]
    simp only [hgate]
  · rcases flagAfterGate_cases s.cfg.clkW t s.lastActivity s.schedState with ⟨hquiet, hopen⟩ | ⟨hbusy, hold, hclosed⟩
    · rw [schedule_release hquiet hq]
      exact (if_pos (hopen.imp_right hgate.mp)).symm
    · have hstays : ¬ (s.schedState = .quiet ∨ 100 < elapsedTime) := by simp [hold, ← hgate, hclosed]
      rw [schedule_busy hbusy]
      exact (if_neg hstays).symm

theorem schedule_of_closed {s : State} {t : Nat} (hbusy : s.schedState = .busy)
    (hclosed : gateOpen s.cfg.clkW t s.lastActivity = false) : schedule t s = s :=
  schedule_busy (by rw [flagAfterGate, hclosed, hbusy]; rfl)

/-- Settles O21: with at most one wrap the modular difference of the two samples is the time between them. -/
theorem oneClockWrapIsHarmless : Obligations.OneClockWrapIsHarmless := by
  intro a t f rest s hbusy hq hstamp hle hwrap
  have helapsed : elapsed s.cfg.clkW t s.lastActivity = t - a := by rw [hstamp, elapsed_of_le hle hwrap]
  rw [exec_sched]
  refine ⟨fun hsoon => ?_, fun hlate => ?_⟩
  · rw [schedule_of_closed hbusy (by simp [gateOpen, helapsed, Config.quietMs]; omega)]
  · have hquiet : flagAfterGate s.cfg.clkW t s.lastActivity s.schedState = .quiet :=
      if_pos (by simp [gateOpen, helapsed, Config.quietMs]; omega)
    exact ⟨_, congrArg _ (schedule_release hquiet hq), rfl, by simp [writes]⟩

theorem schedule_rxBuf (t : Nat) (s : State) : (schedule t s).rxBuf = s.rxBuf := by
  rcases schedule_cases t s with ⟨_, h, _⟩ | ⟨_, _, _, _, h⟩ <;> rw [h]

/-! ### The Transmit Queue -/

theorem exec_of_enqueues {i : Instr} {f : Frame} (h : i = .enq f ∨ commandFrame i = some f) (s : State) :
    exec i s = .next (enqueue f s) := by
  rcases h with rfl | h
  · rfl
  · exact exec_command h s

theorem txqFull_of_le {s : State} {d : Nat} (hd : s.cfg.txqDepth = some d) (h : d ≤ s.txq.length) :
    s.txqFull = true := by
  simpa [State.txqFull, hd] using h

/-- Settles O23: ENQ and every command hand their frame to `enqueue`. -/
theorem fullQueueDropsTheNewFrame : Obligations.FullQueueDropsTheNewFrame := by
  intro i f d s hi hd hlength
  rw [exec_of_enqueues hi, enqueue_of_full (txqFull_of_le hd hlength.ge), State.emit]

/-- Settles O37: a command is the `enqueue` of its frame, on a queue with room or a full one. -/
theorem commandsTouchOnlyTheQueue : Obligations.CommandsTouchOnlyTheQueue := by
  intro i f s hi
  rw [exec_command hi]
  refine ⟨fun hroom => ?_, fun d hd hlength => ?_⟩
  · rw [enqueue_of_room (txqFull_eq_false_iff.mpr hroom), State.withTxq]
  · rw [enqueue_of_full (txqFull_of_le hd hlength), State.emit]

theorem enqueue_rxBuf (f : Frame) (s : State) : (enqueue f s).rxBuf = s.rxBuf := by
  rcases enqueue_cases f s with ⟨_, h⟩ | ⟨_, h⟩ <;> rw [h]

/-! ### ENCODE -/

/-- Settles O33: the trailer shows the sum as reduced. -/
theorem encodeReturnsTheBuiltFrame : Obligations.EncodeReturnsTheBuiltFrame := by
  intro p s c pkt
  have hpkt : encodeFrame p = pkt := by
    rw [encodeFrame, trailer_checksum_of_mod]
    rfl
  rw [← hpkt]
  exact ⟨rfl, encodeFrame_length p⟩

/-! ### The transmit side leaves the candidate -/

theorem transmitSide_cases {i : Instr} (h : transmitSide i = true) :
    (∃ t, i = .sched t) ∨ (∃ p, i = .encodePayload p) ∨ ∃ f, i = .enq f ∨ commandFrame i = some f := by
  unfold transmitSide at h
  split at h
  next t => exact .inl ⟨t, rfl⟩
  next f => exact .inr (.inr ⟨f, .inl rfl⟩)
  next p => exact .inr (.inl ⟨p, rfl⟩)
  next =>
    obtain ⟨f, hf⟩ := Option.isSome_iff_exists.mp h
    exact .inr (.inr ⟨f, .inr hf⟩)

theorem exec_of_transmitSide {i : Instr} (h : transmitSide i = true) (s : State) :
    ∃ t, exec i s = .next t ∧ t.rxBuf = s.rxBuf := by
  rcases transmitSide_cases h with ⟨t, rfl⟩ | ⟨p, rfl⟩ | ⟨f, hi⟩
  · exact ⟨_, rfl, schedule_rxBuf t s⟩
  · exact ⟨_, rfl, rfl⟩
  · exact ⟨_, exec_of_enqueues hi s, enqueue_rxBuf f s⟩

/-- Settles O13, by induction on the operations. -/
theorem partialCandidateStaysForAnyLengthOfTime : Obligations.PartialCandidateStaysForAnyLengthOfTime := by
  intro ops
  induction ops with
  | nil => exact fun s _ => ⟨s, rfl, rfl⟩
  | cons i rest ih =>
    intro s h
    obtain ⟨hi, hrest⟩ := List.forall_mem_cons.mp h
    obtain ⟨u, hu, hbuf⟩ := exec_of_transmitSide hi s
    obtain ⟨t, ht, hbuf'⟩ := ih u hrest
    exact ⟨t, by rw [runOps_cons, hu, andThen_next, ht], hbuf'.trans hbuf⟩

/-! ### RXBYTE and TICK -/

/-- Settles O19, from what the arrival of a byte that does not stop can do. -/
theorem rxByteCompletesUnlessShortStatus : Obligations.RxByteCompletesUnlessShortStatus := by
  intro b t s
  split
  · rename_i hstops
    exact receiveByte_stops t hstops
  · rename_i hstops
    obtain ⟨_, _, _, evs, hevs, _, _, _, _, hreceive⟩ :=
      receiveByte_effect s.cfg t (Bool.eq_false_iff.mpr hstops)
    exact ⟨_, hreceive s rfl rfl, rfl, rfl, rfl, rfl, rfl, rfl, rfl,
      by rw [writes_append, writes_of_fromReceiver hevs, List.append_nil]⟩

theorem exec_tick (drained : List (Byte × Nat)) (t : Nat) (s : State) :
    exec (.tick drained t) s = andThen (receiveAll drained s) fun u => exec (.sched t) u := rfl

/-- Settles O24: the RXBYTEs of a run are `receiveAll`. -/
theorem tickDrainsThenSchedules : Obligations.TickDrainsThenSchedules := by
  intro drained t s
  rw [runOps_append, runOps_rxBytes]
  rfl

/-- Settles O25, from what the arrival of several bytes can do; SCHED starts where it ends. -/
theorem tickCompletesUnlessShortStatus : Obligations.TickCompletesUnlessShortStatus := by
  intro drained t s
  split
  · rename_i hstops
    rw [exec_tick, receiveAll_stops drained hstops, andThen_fault]
  · rename_i hstops
    obtain ⟨_, _, _, evs, hevs, _, _, _, _, hreceive⟩ :=
      receiveAll_effect s.cfg drained (Bool.eq_false_iff.mpr hstops)
    have htick := congrArg (andThen · fun u => exec (.sched t) u) (hreceive s rfl rfl)
    refine ⟨_, _, htick, exec_sched t _, rfl, schedule_rxBuf t _, rfl, rfl, rfl, rfl, ?_⟩
    rw [writes_append, writes_of_fromReceiver hevs, List.append_nil]

/-- Settles O26: the last byte drained has stamped the timer with the very sample of the SCHED: no time has passed. -/
theorem tickThatDrainsSendsNothing : Obligations.TickThatDrainsSendsNothing := by
  intro bytes t s u hbytes h
  rw [exec_tick, receiveAll_eq_feeds t s hbytes] at h
  obtain ⟨v, hv, hsched⟩ := andThen_eq_next.mp h
  obtain rfl := Host.Outcome.next.inj hsched
  have hr := receiveAll_receives ((receiveAll_of_stamped bytes t (s := s.stampBusy t) rfl).trans hv)
  have htimer : v.lastActivity = sample s.cfg.clkW t ∧ v.schedState = .busy := by
    rcases hr.timer with hkept | ⟨x, hx, hstamp⟩
    · exact hkept
    · obtain ⟨_, _, rfl⟩ := by simpa using hx
      exact hstamp
  have hcfg : v.cfg = s.cfg := hr.cfg
  have hclosed : gateOpen v.cfg.clkW t v.lastActivity = false := by
    rw [hcfg, htimer.1, gateOpen, elapsed_self]
    rfl
  rw [schedule_of_closed htimer.2 hclosed]
  exact ⟨hr.txq, htimer.2, hr.writes_eq⟩

/-- Settles O27: the bytes drained write nothing, and SCHED writes nothing or releases the front frame. -/
theorem atMostOneFrameLeavesPerTick : Obligations.AtMostOneFrameLeavesPerTick := by
  intro drained t s u h
  rw [exec_tick] at h
  obtain ⟨v, hv, hsched⟩ := andThen_eq_next.mp h
  obtain rfl := Host.Outcome.next.inj hsched
  have hr := receiveAll_receives hv
  rw [← hr.txq, ← hr.writes_eq, ← hr.cfg]
  rcases schedule_cases t v with ⟨q, h, _⟩ | ⟨f, rest, hq, _, h⟩
  · rw [h]
    exact .inl ⟨rfl, rfl⟩
  · rw [h]
    exact .inr ⟨f, rest, v.out, hq, rfl, by simp [writes], rfl, rfl, rfl⟩

/-- Settles O60: an arriving byte reads and writes no queue, and with room ENQ touches nothing else. -/
theorem enqueueCommutesWithReception : Obligations.EnqueueCommutesWithReception := by
  intro f b t s hdepth
  have henq (u : State) (hu : u.cfg.txqDepth = none) : exec (.enq f) u = .next (u.withTxq (u.txq ++ [f])) := by
    rw [exec_enq, enqueue_of_room (txqFull_of_unbounded hu)]
  have hrx (u : State) : exec (.rxByte b t) u = receiveByte b t u := rfl
  rw [runOps_cons, runOps_cons, henq s hdepth, andThen_next, runOps_cons, hrx, hrx]
  rcases hstops : feedStops s.rxBuf b with _ | _
  · obtain ⟨_, _, _, _, _, _, _, _, _, hreceive⟩ := receiveByte_effect s.cfg t hstops
    rw [hreceive s rfl rfl, hreceive (s.withTxq (s.txq ++ [f])) rfl rfl, andThen_next, andThen_next, runOps_cons,
      henq _ (by exact hdepth)]
    rfl
  · rw [receiveByte_stops t hstops, receiveByte_stops (s := s.withTxq (s.txq ++ [f])) t hstops]
    rfl

/-! ### The trace -/

/-- The new events of an operation are well paired, and none of them is the self-check's warning. -/
theorem exec_new_events {i : Instr} {s t : State} (h : exec i s = .next t) :
    ∃ evs, t.out = s.out ++ evs ∧ flushPaired evs = true ∧ malformedCount evs = 0 := by
  rcases exec_effect h with ⟨_, rfl⟩ | ⟨_, _, hr⟩ | ⟨_, _, _, x, u, _, _, hr, rfl⟩ | ⟨_, _, f, _, rfl⟩ |
    ⟨_, _, _, f, rfl⟩
  · exact ⟨[], by simp, rfl, rfl⟩
  · obtain ⟨evs, hout, hevs⟩ := hr.out
    exact ⟨evs, hout, flushPaired_of_fromReceiver hevs, malformedCount_of_fromReceiver hevs⟩
  · obtain ⟨evs, hout, hevs⟩ := hr.out
    have hpaired := flushPaired_of_fromReceiver hevs
    have hcount := malformedCount_of_fromReceiver hevs
    rcases schedule_cases x u with ⟨q, hx, _⟩ | ⟨f, rest, _, _, hx⟩
    · exact ⟨evs, by rw [hx, hout], hpaired, hcount⟩
    · refine ⟨evs ++ [.txFlush, .txWrite f], by rw [hx, hout, List.append_assoc], flushPaired_append hpaired rfl, ?_⟩
      rw [malformedCount_append, hcount]
      rfl
  · rcases enqueue_cases f s with ⟨_, he⟩ | ⟨_, he⟩
    · exact ⟨[], by simp [he], rfl, rfl⟩
    · exact ⟨_, by rw [he], rfl, rfl⟩
  · exact ⟨[], by simp, rfl, rfl⟩

/-- Settles O28: a well-paired trace followed by well-paired events. -/
theorem flushDirectlyBeforeEveryWrite : Obligations.FlushDirectlyBeforeEveryWrite := by
  intro i s t hpaired h
  obtain ⟨evs, hout, hnew, _⟩ := exec_new_events h
  rw [hout]
  exact flushPaired_append hpaired hnew

/-- Settles O38: no operation adds such a warning. -/
theorem selfCheckNeverDiscards : Obligations.SelfCheckNeverDiscards := by
  intro i s t h
  obtain ⟨evs, hout, _, hnone⟩ := exec_new_events h
  rw [hout, malformedCount_append, hnone, Nat.add_zero]

/-! ### A busy link -/

/-- From BUSY an operation that is no TICK and no SCHED with an open gate writes nothing and leaves BUSY. -/
theorem exec_keeps_busy {i : Instr} {s t : State} (h : exec i s = .next t) (hbusy : s.schedState = .busy)
    (htick : ∀ d x, i ≠ .tick d x) (hsched : ∀ x, i = .sched x → gateOpen s.cfg.clkW x s.lastActivity = false) :
    writes t.out = writes s.out ∧ t.schedState = .busy := by
  rcases exec_effect h with ⟨_, rfl⟩ | ⟨_, _, hr⟩ | ⟨_, _, _, x, u, rfl | ⟨d, rfl⟩, _, _, _⟩ | ⟨_, _, f, _, rfl⟩ |
    ⟨_, _, _, f, rfl⟩
  · exact ⟨rfl, rfl⟩
  · refine ⟨hr.writes_eq, ?_⟩
    rcases hr.timer with ⟨_, hkept⟩ | ⟨_, _, _, hstamped⟩
    · rw [hkept, hbusy]
    · exact hstamped
  · obtain rfl := Host.Outcome.next.inj h
    rw [schedule_of_closed hbusy (hsched x rfl)]
    exact ⟨rfl, hbusy⟩
  · exact absurd rfl (htick d x)
  · rcases enqueue_cases f s with ⟨_, he⟩ | ⟨_, he⟩
    · rw [he]
      exact ⟨rfl, hbusy⟩
    · rw [he]
      exact ⟨by simp [writes], hbusy⟩
  · exact ⟨rfl, hbusy⟩

/-- Settles O32, by induction on the operations: the premise on the SCHEDs of a run holds for its rest. -/
theorem nothingIsSentOnABusyLink : Obligations.NothingIsSentOnABusyLink := by
  intro ops
  induction ops with
  | nil =>
    intro s t hbusy _ _ h
    obtain rfl := Host.Outcome.next.inj h
    exact ⟨rfl, hbusy⟩
  | cons i rest ih =>
    intro s t hbusy htick hsched h
    obtain ⟨u, hu, hrest⟩ := andThen_eq_next.mp h
    have hclosed (x : Nat) (hi : i = .sched x) : gateOpen s.cfg.clkW x s.lastActivity = false := by
      rw [Bool.eq_false_iff, ne_eq, gateOpen_iff, not_lt]
      exact hsched [] rest x s (by rw [hi]; rfl) rfl
    obtain ⟨hwrites, hbusy'⟩ :=
      exec_keeps_busy hu hbusy (fun d x hi => htick d x (hi ▸ List.mem_cons_self)) hclosed
    have hsched' (before after : List Instr) (x : Nat) (v : State) (hsplit : rest = before ++ .sched x :: after)
        (hv : runOps before u = .next v) : ((x : Int) - v.lastActivity) % (2 : Int) ^ v.cfg.clkW ≤ 100 :=
      hsched (i :: before) after x v (by rw [hsplit]; rfl) (by rw [runOps_cons, hu, andThen_next, hv])
    obtain ⟨hwrites', hbusy''⟩ :=
      ih u t hbusy' (fun d x hmem => htick d x (List.mem_cons_of_mem _ hmem)) hsched' hrest
    exact ⟨hwrites'.trans hwrites, hbusy''⟩

end Sys2Proof.Machine
end

section
/-! PROOFS. The Packet Interpreter's rows: what each class reports, which frame belongs to which row, and who writes the
observables (43_packet_interpreter R211 to R221; 30_encoding R90, R96; 10_state R27). -/

namespace Sys2Proof.Machine

/-! ### The rows of a class share one meaning -/

theorem exec_of_mem_rows {a b c i : Instr} {k : State → Result} (ha : exec a = k) (hb : exec b = k) (hc : exec c = k)
    (h : i ∈ [a, b, c]) (s : State) : exec i s = k s := by
  simp only [List.mem_cons, List.not_mem_nil, or_false] at h
  rcases h with rfl | rfl | rfl
  · rw [ha]
  · rw [hb]
  · rw [hc]

theorem exec_of_mem_extProg {i : Instr} {f : Frame} (h : i ∈ [Instr.rxExtProg60 f, .rxExtProg61 f, .rxExtProg62 f])
    (s : State) : exec i s = extProg f s :=
  exec_of_mem_rows (k := extProg f) rfl rfl rfl h s

theorem exec_of_mem_localProg {i : Instr} {f : Frame}
    (h : i ∈ [Instr.rxLocalProg60 f, .rxLocalProg61 f, .rxLocalProg62 f]) (s : State) :
    exec i s = localProg f s :=
  exec_of_mem_rows (k := localProg f) rfl rfl rfl h s

theorem exec_of_mem_status {i : Instr} {f : Frame} (h : i ∈ [Instr.rxStatus60 f, .rxStatus61 f, .rxStatus62 f])
    (s : State) : exec i s = statusReport f s :=
  exec_of_mem_rows (k := statusReport f) rfl rfl rfl h s

/-- Settles O43: the three rows of a class share its meaning. -/
theorem classRowsReport : Obligations.ClassRowsReport := fun _ _ _ s h6 h7 =>
  ⟨fun _ hi => (exec_of_mem_extProg hi s).trans (extProg_of_programId s h6),
    fun _ hi => exec_of_mem_rows (k := localCtrl) rfl rfl rfl hi s,
    fun _ hi => exec_of_mem_rows (k := remoteCtrl) rfl rfl rfl hi s,
    fun _ hi => (exec_of_mem_localProg hi s).trans (localProg_of_programId s h7)⟩

/-! ### Frames of no class -/

theorem controlReport_of_other {f : Frame} {b : Byte} (s : State) (h : f[6]? = some b) (h0 : b ≠ 0x00#8)
    (hff : b ≠ 0xFF#8) : controlReport f s = .next s := by
  rw [controlReport, withFrameByte_some _ h, if_neg h0, if_neg hff]

/-- Settles O41: an irrelevant frame ends INTERPRET at once, any other one in the branch of its opcode. -/
theorem unmatchedFramesAreIgnored : Obligations.UnmatchedFramesAreIgnored := by
  intro f f3 f4 f6 s h3 h4 h6 h
  by_cases hrel : relevant f3 f4 = false
  · exact interpretFrame_of_irrelevant h3 h4 hrel s
  rw [exec_interpret_of_relevant s h3 h4 (by simpa using hrel)]
  rcases h with ⟨h60, h61, h62, h64⟩ | ⟨h1, h4, h5, h7⟩ | ⟨rfl, h0, hff⟩
  · exact absurd (by simp [relevant, h60, h61, h62, h64]) hrel
  · rw [if_neg h1, if_neg h4, if_neg h5, if_neg h7]
  · exact controlReport_of_other s h6 h0 hff

/-! ### Status reports -/

/-- INTERPRET of a relevant frame with opcode 07 is the status report (R216). -/
theorem exec_interpret_status {f : Frame} (s : State) (h4 : f[4]? = some 0x07#8)
    (h3 : f[3]? = some 0x60#8 ∨ f[3]? = some 0x61#8 ∨ f[3]? = some 0x62#8) :
    exec (.interpret f) s = statusReport f s := by
  obtain ⟨f3, hf3, hid⟩ : ∃ f3, f[3]? = some f3 ∧ (f3 = 0x60#8 ∨ f3 = 0x61#8 ∨ f3 = 0x62#8) := by
    rcases h3 with h | h | h <;> exact ⟨_, h, by simp⟩
  exact exec_interpret_of_relevant s hf3 h4 (relevant_of_responseId _ hid)

/-- Settles O44: rows and INTERPRET come down to one status report of at least 13 bytes. -/
theorem statusReportPublishes : Obligations.StatusReportPublishes := by
  intro f i r p1 p0 v1 v0 s hi h6 h9 h10 h11 h12 power speed
  have hreport : exec i s = statusReport f s := by
    rcases hi with hrow | ⟨rfl, h4, h3⟩
    · exact exec_of_mem_status hrow s
    · exact exec_interpret_status s h4 h3
  rw [hreport, statusReport_long s (List.getElem?_eq_some_iff.mp h12).1, byteAt_of_getElem? h6, byteAt_of_getElem? h9,
    byteAt_of_getElem? h10, byteAt_of_getElem? h11, byteAt_of_getElem? h12]
  simp only [statusEvents, List.append_assoc]
  rfl

/-- Settles O45, by the rule that reads the missing byte. -/
theorem framesTooShortForTheirRuleFault : Obligations.FramesTooShortForTheirRuleFault := by
  intro f s
  refine ⟨fun hlen => ⟨fun i hi => ?_, fun h4 h3 => ?_⟩, fun hlen i hi => ?_, fun hlen i hi => ?_, fun hlen => ?_⟩
  · rw [exec_of_mem_status hi, statusReport_short s hlen]
  · rw [exec_interpret_status s h4 h3, statusReport_short s hlen]
  · rw [exec_of_mem_extProg hi, extProg, withFrameByte_none _ (List.getElem?_eq_none (by omega))]
  · rw [exec_of_mem_localProg hi, localProg, withFrameByte_none _ (List.getElem?_eq_none (by omega))]
  · rw [exec_interpret, interpretFrame]
    rcases h3 : f[3]? with _ | f3
    · rw [withFrameByte_none _ h3]
    · rw [withFrameByte_some _ h3, withFrameByte_none _ (List.getElem?_eq_none (by omega))]

/-! ### The row of a frame -/

/-- Two rows test some byte with the same mask for different values. -/
def rowsConflict (r r' : RxRow) : Bool :=
  (List.range 7).any fun k => r.mask[k]? == r'.mask[k]? && r.pattern[k]? != r'.pattern[k]?

theorem maskMatch_getElem? {p m f : List Byte} (hp : p.length = 7) (h : maskMatch p m f = true) (k : Nat) :
    p[k]? = (List.zipWith (· &&& ·) (f.take 7) m)[k]? := by
  rw [maskMatch, hp, decide_eq_true_eq] at h
  rw [h]

theorem not_maskMatch_of_rowsConflict {r r' : RxRow} (hlen : r.pattern.length = 7) (hlen' : r'.pattern.length = 7)
    (h : rowsConflict r r' = true) {f : Frame} (hr : maskMatch r.pattern r.mask f = true) :
    maskMatch r'.pattern r'.mask f = false := by
  rw [Bool.eq_false_iff]
  intro hr'
  obtain ⟨k, _, hk⟩ := List.any_eq_true.mp h
  rw [Bool.and_eq_true, beq_iff_eq, bne_iff_ne] at hk
  obtain ⟨hmask, hpattern⟩ := hk
  refine hpattern ?_
  rw [maskMatch_getElem? hlen hr, maskMatch_getElem? hlen' hr', List.getElem?_zipWith, List.getElem?_zipWith, hmask]

theorem rxRows_conflict : rxRows.Pairwise fun r r' => rowsConflict r r' = true := by decide

theorem rxRows_length : ∀ r ∈ rxRows, r.pattern.length = 7 := by decide

/-- Settles O47: any two rows test one byte for two values, so the rows a frame matches cannot be two. -/
theorem noFrameBelongsToTwoClasses : Obligations.NoFrameBelongsToTwoClasses := by
  intro f
  have hconflict := rxRows_conflict.filter fun r => maskMatch r.pattern r.mask f
  have hmem {r : RxRow} (h : r ∈ rxRows.filter fun r => maskMatch r.pattern r.mask f) :
      r.pattern.length = 7 ∧ maskMatch r.pattern r.mask f = true := by
    obtain ⟨hrow, hmatch⟩ := List.mem_filter.mp h
    exact ⟨rxRows_length r hrow, hmatch⟩
  rcases hrows : rxRows.filter fun r => maskMatch r.pattern r.mask f with _ | ⟨r, _ | ⟨r', rest⟩⟩
  · simp [hrows]
  · simp [hrows]
  · rw [hrows] at hconflict
    obtain ⟨hlen, hmatch⟩ := hmem (r := r) (by simp [hrows])
    obtain ⟨hlen', hmatch'⟩ := hmem (r := r') (by simp [hrows])
    have hpair := (List.pairwise_cons.mp hconflict).1 r' List.mem_cons_self
    have hne := not_maskMatch_of_rowsConflict hlen hlen' hpair hmatch
    exact absurd hmatch' (by simp [hne])

/-- INTERPRET of a frame that matches a row is that row's operation (R211 to R216). -/
theorem exec_interpret_of_row {f : Frame} {r : RxRow} (hlen : 7 ≤ f.length) (hr : r ∈ rxRows)
    (hmatch : maskMatch r.pattern r.mask f = true) (s : State) : exec (.interpret f) s = exec (r.make f) s := by
  have hbyte (k : Nat) (hk : k < 7) : f[k]? = some (byteAt f k) := getElem?_of_byteAt (by omega)
  simp only [rxRows, List.mem_cons, List.not_mem_nil, or_false] at hr
  rcases hr with rfl | rfl | rfl | rfl | rfl | rfl | rfl | rfl | rfl | rfl | rfl | rfl | rfl | rfl | rfl
  all_goals
    obtain ⟨-, h3, h4, h6⟩ := (maskMatch_class _ _ _ _ hlen).mp hmatch
    have e3 := hbyte 3 (by omega)
    have e4 := hbyte 4 (by omega)
    have e6 := hbyte 6 (by omega)
    simp at h3 h4 h6
    rw [h3] at e3
    rw [h4] at e4
    rw [exec_interpret_of_relevant s e3 e4 rfl]
  -- EXT_PROG; the control reports, which look at the first payload byte; LOCAL_PROG and STATUS
  iterate 3 exact rfl
  iterate 6 exact withFrameByte_some _ (h6 ▸ e6)
  iterate 6 exact rfl

end Sys2Proof.Machine
end

section
/-! PROOFS. INTERPRET as the class of the table, and the one writer of the observables (43_packet_interpreter R210 to
R219; 10_state R27). -/

namespace Sys2Proof.Machine

/-- A frame of accepted layout that matches no row is irrelevant, has an opcode of no class, or is a control report of
no class. -/
theorem unmatched_of_readClass_none {f : Frame} (hs : f.shaped = true) (h : readClass f = none) :
    (byteAt f 3 ≠ 0x60#8 ∧ byteAt f 3 ≠ 0x61#8 ∧ byteAt f 3 ≠ 0x62#8 ∧ byteAt f 4 ≠ 0x64#8) ∨
      (byteAt f 4 ≠ 0x01#8 ∧ byteAt f 4 ≠ 0x04#8 ∧ byteAt f 4 ≠ 0x05#8 ∧ byteAt f 4 ≠ 0x07#8) ∨
      (byteAt f 4 = 0x04#8 ∧ byteAt f 6 ≠ 0x00#8 ∧ byteAt f 6 ≠ 0xFF#8) := by
  have h7 : 7 ≤ f.length := by
    have := Frame.shaped_length hs
    omega
  have h0 : byteAt f 0 = 0xA5#8 := byteAt_of_getElem? (Frame.shaped_iff.mp hs).1
  by_cases hid : byteAt f 3 = 0x60#8 ∨ byteAt f 3 = 0x61#8 ∨ byteAt f 3 = 0x62#8
  · have hrows := List.find?_eq_none.mp (Option.map_eq_none_iff.mp h)
    simp only [rxRows, List.forall_mem_cons, maskMatch_class _ _ _ _ h7, h0, true_and] at hrows
    refine .inr ?_
    rcases hid with h3 | h3 | h3 <;> simp [h3] at hrows <;> tauto
  · simp only [not_or] at hid
    obtain ⟨h60, h61, h62⟩ := hid
    by_cases h64 : byteAt f 4 = 0x64#8
    · exact .inr (.inl (by simp [h64]))
    · exact .inl ⟨h60, h61, h62, h64⟩

/-- Settles O46: a matched row gives its operation; what no row matches is ignored by INTERPRET too. -/
theorem interpretIsTheClassOfTheTable : Obligations.InterpretIsTheClassOfTheTable := by
  intro f s hs
  have h8 := Frame.shaped_length hs
  rcases hclass : readClass f with _ | i
  · have hignored : decode (.accepted f) = .ignored := by rw [decode, hclass]
    rw [hignored]
    exact unmatchedFramesAreIgnored f _ _ _ s (getElem?_of_byteAt (by omega)) (getElem?_of_byteAt (by omega))
      (getElem?_of_byteAt (by omega)) (unmatched_of_readClass_none hs hclass)
  · have hinstr : decode (.accepted f) = .instr i := by rw [decode, hclass]
    rw [hinstr]
    obtain ⟨r, hr, hmatch, rfl⟩ := readClass_cases hclass
    exact exec_interpret_of_row (by omega) hr hmatch s

/-! ### The observables -/

/-- The observables of two states are the same. -/
def SameObservables (s t : State) : Prop :=
  t.obsRunning = s.obsRunning ∧ t.obsPower = s.obsPower ∧ t.obsSpeed = s.obsSpeed

theorem schedule_observables (t : Nat) (s : State) : SameObservables s (schedule t s) := by
  rcases schedule_cases t s with ⟨_, h, _⟩ | ⟨_, _, _, _, h⟩ <;> rw [h] <;> exact ⟨rfl, rfl, rfl⟩

theorem enqueue_observables (f : Frame) (s : State) : SameObservables s (enqueue f s) := by
  rcases enqueue_cases f s with ⟨_, h⟩ | ⟨_, h⟩ <;> rw [h] <;> exact ⟨rfl, rfl, rfl⟩

/-- An operation other than RESET writes the observables only as a reception. -/
theorem exec_observables {i : Instr} {s t : State} (hi : i ≠ .reset) (h : exec i s = .next t) :
    SameObservables s t ∨
      ∃ times u, Receives times (statusReports s.rxBuf i).isEmpty s u ∧ SameObservables u t := by
  rcases exec_effect h with ⟨hreset, _⟩ | ⟨_, _, hr⟩ | ⟨_, _, _, x, u, _, _, hr, rfl⟩ | ⟨_, _, f, _, rfl⟩ |
    ⟨_, _, _, f, rfl⟩
  · exact absurd hreset hi
  · exact .inr ⟨_, t, hr, rfl, rfl, rfl⟩
  · exact .inr ⟨_, u, hr, schedule_observables x u⟩
  · exact .inl (enqueue_observables f s)
  · exact .inl ⟨rfl, rfl, rfl⟩

/-- Settles O48: only a reception writes the observables, under the conditions of `Receives`. -/
theorem observablesHaveOneWriter : Obligations.ObservablesHaveOneWriter := by
  intro i s t hi h
  rcases exec_observables hi h with hsame | ⟨times, u, hr, hrun, hpower, hspeed⟩
  · exact ⟨fun _ => hsame, fun _ => hsame.1, fun _ => hsame.2.1, fun _ => hsame.2.2⟩
  · rw [hrun, hpower, hspeed]
    exact ⟨fun hnone => hr.observables (by rw [hnone]; rfl), hr.monRun, hr.monPower, hr.monSpeed⟩

end Sys2Proof.Machine
end

section
/-! PROOFS. Decoding: an encoded operation decodes to itself, and a command's frame is read back by the CMD rows
(30_encoding R80, R87, R90, R94, R96). -/

namespace Sys2Proof

open Machine

/-! ### Frames on the link -/

/-- A frame on the link with the length its length byte asks for is a FRAME (R80, R83). -/
theorem readLink_of_wellShaped {p : List Byte} (hp : WellShaped p) (high low : Byte) (t : Nat) :
    (readLink (linkFrame p high low) t).isSome = true := by
  obtain ⟨hheader, hlength⟩ := hp
  rcases p with _ | ⟨x, p⟩
  · simp at hheader
  obtain rfl : x = 0xA5#8 := by simpa using hheader
  have h8 : byteAt (linkFrame (0xA5#8 :: p) high low) Config.lenPos = byteAt (0xA5#8 :: p) 5 :=
    byteAt_append_left (a := Config.preamble ++ (0xA5#8 :: p)) (by
      simp [Config.preamble, Config.lenPos] at hlength ⊢
      omega)
  have hwhole : (linkFrame (0xA5#8 :: p) high low).length = (byteAt (0xA5#8 :: p) 5).toNat + Config.frameOverhead := by
    rw [linkFrame_length, hlength, Config.frameOverhead]
  rw [readLink, h8]
  rw [if_pos ⟨rfl, hwhole⟩]
  rfl

theorem readLink_linkBytes (r0 r1 r2 r3 : Byte) {payload : List Byte} (ck : Word16) (t : Nat)
    (h : payload.length ≤ 255) :
    readLink (linkBytes r0 r1 r2 r3 payload ck) t = some (.frame r0 r1 r2 r3 payload ck t) := by
  have hlen : (byteAt (linkBytes r0 r1 r2 r3 payload ck) Config.lenPos).toNat = payload.length := by
    change (BitVec.ofNat 8 payload.length).toNat = _
    rw [BitVec.toNat_ofNat, Nat.mod_eq_of_lt (by omega)]
  have hpayload : slice 9 (9 + payload.length) (linkBytes r0 r1 r2 r3 payload ck) = payload :=
    slice_middle (Config.linkHeader ++ [r0, r1, r2, r3, BitVec.ofNat 8 payload.length]) payload (trailer ck)
  have htrailer (k : Nat) :
      byteAt (linkBytes r0 r1 r2 r3 payload ck) (k + 9 + payload.length) = byteAt (trailer ck) k := by
    rw [linkBytes, byteAt_append_right (by simp [Config.linkHeader]; omega)]
    congr 1
    simp [Config.linkHeader]
    omega
  have hhigh := htrailer 0
  have hlow := htrailer 1
  rw [Nat.zero_add] at hhigh
  rw [readLink, hlen]
  rw [if_pos ⟨rfl, linkBytes_length r0 r1 r2 r3 payload ck⟩, hpayload, hhigh, hlow]
  congr 2
  exact be16_hi_lo ck

/-! ### Accepted frames -/

theorem eq_of_mem_of_length_le_one {α : Type} {l : List α} (h : l.length ≤ 1) {a b : α} (ha : a ∈ l) (hb : b ∈ l) :
    a = b := by
  match l, h with
  | [x], _ => rw [List.mem_singleton.mp ha, List.mem_singleton.mp hb]

/-- A frame matches one row only, so that row's operation is read. -/
theorem readClass_of_row {f : Frame} {r : RxRow} (hr : r ∈ rxRows) (hmatch : maskMatch r.pattern r.mask f = true) :
    readClass f = some (r.make f) := by
  rw [readClass]
  rcases hfind : rxRows.find? fun r => maskMatch r.pattern r.mask f with _ | r'
  · exact absurd hmatch (List.find?_eq_none.mp hfind r hr)
  · have hmatch' := List.find?_some (p := fun r : RxRow => maskMatch r.pattern r.mask f) hfind
    have hrow : r' = r := eq_of_mem_of_length_le_one (noFrameBelongsToTwoClasses f)
      (List.mem_filter.mpr ⟨List.mem_of_find?_eq_some hfind, hmatch'⟩) (List.mem_filter.mpr ⟨hr, hmatch⟩)
    rw [hfind, hrow]
    rfl

theorem decode_accepted_of_row (k : Nat) {f : Frame} (hk : k < rxRows.length)
    (hmatch : maskMatch rxRows[k].pattern rxRows[k].mask f = true) :
    decode (.accepted f) = .instr (rxRows[k].make f) := by
  rw [decode, readClass_of_row (List.getElem_mem hk) hmatch]

/-- The rows without a test of the first payload byte (R90). -/
theorem maskMatch_of_hasIds {f : Frame} {p3 p4 : Byte} (h : (f.shaped && f.hasIds p3 p4) = true) :
    maskMatch [0xA5, 0x00, 0x00, p3, p4, 0x00, 0x00] [0xFF, 0x00, 0x00, 0xFF, 0xFF, 0x00, 0x00] f = true := by
  simp only [Bool.and_eq_true, Frame.hasIds, beq_iff_eq] at h
  obtain ⟨hs, h3, h4⟩ := h
  have h8 := Frame.shaped_length hs
  exact (maskMatch_class _ _ _ _ (by omega)).mpr ⟨byteAt_of_getElem? (Frame.shaped_iff.mp hs).1,
    byteAt_of_getElem? h3, byteAt_of_getElem? h4, and_zero_byte _⟩

/-- The rows of the control reports, which test the first payload byte too (R90). -/
theorem maskMatch_of_hasFirst {f : Frame} {p3 p4 p6 : Byte}
    (h : (f.shaped && f.hasIds p3 p4 && f.hasFirst p6) = true) :
    maskMatch [0xA5, 0x00, 0x00, p3, p4, 0x00, p6] [0xFF, 0x00, 0x00, 0xFF, 0xFF, 0x00, 0xFF] f = true := by
  simp only [Bool.and_eq_true, Frame.hasIds, Frame.hasFirst, beq_iff_eq] at h
  obtain ⟨⟨hs, h3, h4⟩, h6⟩ := h
  have h8 := Frame.shaped_length hs
  exact (maskMatch_class _ _ _ _ (by omega)).mpr ⟨byteAt_of_getElem? (Frame.shaped_iff.mp hs).1,
    byteAt_of_getElem? h3, byteAt_of_getElem? h4, (and_ones_byte _).trans (byteAt_of_getElem? h6)⟩

/-- Settles O51: a FRAME by its layout, an RX row by its match and mask, all others by their port. -/
theorem decodeOfEncodeIsTheOperation : Obligations.DecodeOfEncodeIsTheOperation := by
  intro i h
  cases i with
  | frame r0 r1 r2 r3 payload ck t =>
    rw [encode, decode, readLink_linkBytes r0 r1 r2 r3 ck t (of_decide_eq_true h)]
  | rxExtProg60 f => exact decode_accepted_of_row 0 (by decide) (maskMatch_of_hasIds h)
  | rxExtProg61 f => exact decode_accepted_of_row 1 (by decide) (maskMatch_of_hasIds h)
  | rxExtProg62 f => exact decode_accepted_of_row 2 (by decide) (maskMatch_of_hasIds h)
  | rxLocalCtrl60 f => exact decode_accepted_of_row 3 (by decide) (maskMatch_of_hasFirst h)
  | rxLocalCtrl61 f => exact decode_accepted_of_row 4 (by decide) (maskMatch_of_hasFirst h)
  | rxLocalCtrl62 f => exact decode_accepted_of_row 5 (by decide) (maskMatch_of_hasFirst h)
  | rxRemoteCtrl60 f => exact decode_accepted_of_row 6 (by decide) (maskMatch_of_hasFirst h)
  | rxRemoteCtrl61 f => exact decode_accepted_of_row 7 (by decide) (maskMatch_of_hasFirst h)
  | rxRemoteCtrl62 f => exact decode_accepted_of_row 8 (by decide) (maskMatch_of_hasFirst h)
  | rxLocalProg60 f => exact decode_accepted_of_row 9 (by decide) (maskMatch_of_hasIds h)
  | rxLocalProg61 f => exact decode_accepted_of_row 10 (by decide) (maskMatch_of_hasIds h)
  | rxLocalProg62 f => exact decode_accepted_of_row 11 (by decide) (maskMatch_of_hasIds h)
  | rxStatus60 f => exact decode_accepted_of_row 12 (by decide) (maskMatch_of_hasIds h)
  | rxStatus61 f => exact decode_accepted_of_row 13 (by decide) (maskMatch_of_hasIds h)
  | rxStatus62 f => exact decode_accepted_of_row 14 (by decide) (maskMatch_of_hasIds h)
  | _ => rfl

/-- Settles O53: four closed words. -/
theorem sampleWordsDecode : Obligations.SampleWordsDecode :=
  ⟨by decide, by decide, by decide, by decide⟩

/-! ### The frames of commands -/

@[simp] theorem maskMatch_nil (m f : List Byte) : maskMatch [] m f = true := by simp [maskMatch]

@[simp] theorem maskMatch_cons (p q x : Byte) (ps ms f : List Byte) :
    maskMatch (p :: ps) (q :: ms) (x :: f) = (decide (x &&& q = p) && maskMatch ps ms f) := by
  simp [maskMatch]

theorem selLocalByte_sub (n : Byte) : selLocalByte n - 1 = n := by
  simp only [selLocalByte]
  bv_omega

theorem saveByte_sub (n : Byte) : saveByte n - 0x26 = n := by
  simp only [saveByte]
  bv_omega

/-- A multiple of 8 is the byte SEL_EXT writes for its eighth (R190). -/
theorem selExtByte_div {x : Byte} (h : x.toNat % 8 = 0) : selExtByte (BitVec.ofNat 8 (x.toNat / 8)) = x := by
  have := x.isLt
  apply BitVec.eq_of_toNat_eq
  simp only [selExtByte, BitVec.toNat_ofNat]
  omega

theorem selExtByte_mod (n : Byte) : (selExtByte n).toNat % 8 = 0 := by simp [selExtByte]

theorem readCommand_selLocal (n high low : Byte) :
    readCommand (linkFrame (payloadSelLocal n) high low) = some (.cmdSelLocal n) := by
  have hread : selLocalByte n - 1#8 = n := selLocalByte_sub n
  simp [linkFrame, Config.preamble, payloadSelLocal, readCommand, fixedCmdRows, argCmdRows, byteAt, hread]

theorem readCommand_selExt (n high low : Byte) :
    readCommand (linkFrame (payloadSelExt n) high low) =
      some (.cmdSelExt (BitVec.ofNat 8 ((selExtByte n).toNat / 8))) := by
  simp [linkFrame, Config.preamble, payloadSelExt, readCommand, fixedCmdRows, argCmdRows, byteAt, selExtByte_mod]

/-- A SAVE frame in the place of SEL_EXT is read as that command where SEL_EXT writes such a byte (R190, R191;
log 9). -/
theorem readCommand_save (n : Byte) (v : Word16) (high low : Byte) :
    readCommand (linkFrame (payloadSave n v) high low) =
      if (saveByte n = 0x21#8 ∧ hi v = 0x00#8) ∧ (lo v).toNat % 8 = 0 then
        some (.cmdSelExt (BitVec.ofNat 8 ((lo v).toNat / 8)))
      else some (.cmdSave n v) := by
  have hread : saveByte n - 38#8 = n := saveByte_sub n
  rw [ite_and]
  simp [linkFrame, Config.preamble, payloadSave, readCommand, fixedCmdRows, argCmdRows, byteAt, List.findSome?_cons,
    hread]
  by_cases hrow : saveByte n = 33#8 ∧ hi v = 0#8
  · by_cases h8 : v.toNat % 8 = 0 <;> simp [hrow, h8]
  · simp [hrow]

theorem readCommand_speed (r : Word16) (high low : Byte) :
    readCommand (linkFrame (payloadSpeed r) high low) = some (.cmdSpeed r) := by
  simp [linkFrame, Config.preamble, payloadSpeed, readCommand, fixedCmdRows, argCmdRows, byteAt]

theorem readCommand_flow (f high low : Byte) :
    readCommand (linkFrame (payloadFlow f) high low) = some (.cmdFlow f) := by
  simp [linkFrame, Config.preamble, payloadFlow, readCommand, fixedCmdRows, argCmdRows, byteAt]

/-- A command's row goes before FRAME (R96; log 9). -/
theorem decode_coded_of_readCommand {p : List Byte} (hp : WellShaped p) {j : Instr}
    (h : readCommand (encodeFrame p) = some j) : decode (.coded (encodeFrame p)) = .instr j := by
  obtain ⟨i, hi⟩ := Option.isSome_iff_exists.mp (readLink_of_wellShaped hp (hi (checksum p)) (lo (checksum p)) 0)
  have hrow : readRow (encodeFrame p) = some j := by
    rw [readRow, encodeFrame_eq_linkFrame, hi, ← encodeFrame_eq_linkFrame, h]
    rfl
  rw [decode, hrow]

/-- The frame of SEL_EXT(N) read as SEL_EXT(N') queues the same bytes, N' being N modulo 32. -/
theorem commandFrame_selExt_of_byte {x : Byte} (h : x.toNat % 8 = 0) :
    commandFrame (.cmdSelExt (BitVec.ofNat 8 (x.toNat / 8))) =
      some (encodeFrame [0xA5, 0x00, 0x60, 0x10, 0x01, 0x04, 0x03, 0x21, 0x00, x]) := by
  rw [commandFrame, payloadSelExt, selExtByte_div h]

/-- Settles O52, by the row that reads each command's frame; SAVE's may be SEL_EXT's row. -/
theorem commandFramesReadBackAsTheirCommand : Obligations.CommandFramesReadBackAsTheirCommand := by
  intro i f h
  cases i with
  | cmdReqStatus => exact ⟨.cmdReqStatus, by cases h; decide, h⟩
  | cmdForceLocal => exact ⟨.cmdForceLocal, by cases h; decide, h⟩
  | cmdForceRemote => exact ⟨.cmdForceRemote, by cases h; decide, h⟩
  | cmdRun => exact ⟨.cmdRun, by cases h; decide, h⟩
  | cmdStop => exact ⟨.cmdStop, by cases h; decide, h⟩
  | cmdSelLocal n =>
    cases h
    exact ⟨_, decode_coded_of_readCommand ⟨rfl, rfl⟩ (readCommand_selLocal n _ _), rfl⟩
  | cmdSelExt n =>
    cases h
    exact ⟨_, decode_coded_of_readCommand ⟨rfl, rfl⟩ (readCommand_selExt n _ _),
      commandFrame_selExt_of_byte (selExtByte_mod n)⟩
  | cmdSave n v =>
    cases h
    by_cases hrow : (saveByte n = 0x21#8 ∧ hi v = 0x00#8) ∧ (lo v).toNat % 8 = 0
    · have hread := readCommand_save n v (hi (checksum (payloadSave n v))) (lo (checksum (payloadSave n v)))
      rw [if_pos hrow] at hread
      obtain ⟨⟨hsave, hhi⟩, h8⟩ := hrow
      refine ⟨_, decode_coded_of_readCommand ⟨rfl, rfl⟩ hread, ?_⟩
      rw [commandFrame_selExt_of_byte h8, payloadSave, hsave, hhi]
      rfl
    · have hread := readCommand_save n v (hi (checksum (payloadSave n v))) (lo (checksum (payloadSave n v)))
      rw [if_neg hrow] at hread
      exact ⟨_, decode_coded_of_readCommand ⟨rfl, rfl⟩ hread, rfl⟩
  | cmdSpeed r =>
    cases h
    exact ⟨_, decode_coded_of_readCommand ⟨rfl, rfl⟩ (readCommand_speed r _ _), rfl⟩
  | cmdFlow x =>
    cases h
    exact ⟨_, decode_coded_of_readCommand ⟨rfl, rfl⟩ (readCommand_flow x _ _), rfl⟩
  | _ => cases h

end Sys2Proof
end

section
/-! PROOFS. One step at the input ports, the reset values, and the one way an operation stops (10_state R33, R34;
30_encoding R94, R95; 60_exceptions R240, R260). -/

namespace Sys2Proof.Machine

/-! ### Reset -/

/-- Settles O1: every field of `State.reset`. -/
theorem resetStateRegisters : Obligations.ResetStateRegisters :=
  ⟨rfl, rfl, rfl, rfl, rfl, rfl, rfl, rfl, rfl, rfl⟩

/-- Settles O2: RESET is `clearRegisters`, the same record. -/
theorem resetOperationClearsEveryRegister : Obligations.ResetOperationClearsEveryRegister :=
  fun _ => rfl

/-! ### One step -/

/-- Settles O49: the transaction is fetched and its operation run. -/
theorem stepRunsTheDecodedOperation : Obligations.StepRunsTheDecodedOperation :=
  fun _ _ _ _ hinputs hdecode => step_of_fetch_instr (fetch_instr hinputs hdecode)

theorem step_of_ignored {s : State} {x : Transaction} {rest : List Transaction} (h : s.inputs = x :: rest)
    (hdecode : decode x = .ignored) : step s = .next (s.withInputs rest) := by
  rw [step, fetch_ignored h hdecode]

theorem step_of_noRow {s : State} {x : Transaction} {rest : List Transaction} {b : Byte} {later : List Byte} {now : Nat}
    (h : s.inputs = x :: rest) (hdecode : decode x = .noRow (b :: later) now) :
    step s = exec (.rxByte b now) (s.withInputs (.link later now :: rest)) :=
  step_of_fetch_instr (fetch_noRow h hdecode)

theorem step_of_noBytes {s : State} {x : Transaction} {rest : List Transaction} {now : Nat}
    (h : s.inputs = x :: rest) (hdecode : decode x = .noRow [] now) : step s = .next (s.withInputs rest) := by
  rw [step, fetch_noRow h hdecode, arriving_nil]

/-- The command port by the list of its codes (R94). -/
theorem decode_cmd (op : BitVec 4) (n : Byte) (v : Word16) :
    decode (.cmd op n v) =
      ([Instr.cmdReqStatus, .cmdForceLocal, .cmdForceRemote, .cmdRun, .cmdStop, .cmdSelLocal n,
        .cmdSelExt n, .cmdSave n v, .cmdSpeed v, .cmdFlow n][op.toNat]?).elim .ignored .instr := by
  have hop := op.isLt
  rw [decode, decodeCmdPort]
  generalize op.toNat = k at hop
  interval_cases k <;> rfl

/-- Settles O50: by what the transaction decodes to. -/
theorem stepAtTheInputPorts : Obligations.StepAtTheInputPorts := by
  refine ⟨?idle, ?bytes, ?noBytes, ?command⟩
  case idle =>
    intro s h
    rw [step, fetch_idle h]
  case bytes =>
    refine fun b later now rest s => ⟨fun h hlink => ?_, fun h hrow => ?_⟩
    · exact step_of_noRow h (by rw [decode, hlink])
    · exact step_of_noRow h (by rw [decode, hrow])
  case noBytes =>
    rintro x now rest s (rfl | rfl) h
    · exact step_of_noBytes h rfl
    · exact step_of_noBytes h rfl
  case command =>
    intro op n v rest s h
    have hdecode := decode_cmd op n v
    split <;> rename_i hcode <;> rw [hcode] at hdecode
    · exact step_of_fetch_instr (fetch_instr h hdecode)
    · exact step_of_ignored h hdecode

/-! ### Stops -/

/-- The outcome of an operation that takes the status reports `reports`: the fault of R221 where one of them has fewer
than 13 bytes, else a next state. -/
def StopsOnShortStatus (reports : List Frame) (r : Result) : Prop :=
  if ∃ f ∈ reports, f.length < 13 then r = .fault .interpShortFrame else ∃ t, r = .next t

theorem StopsOnShortStatus.of_next {r : Result} {t : State} (h : r = .next t) : StopsOnShortStatus [] r := by
  simp [StopsOnShortStatus, h]

/-- For frames of which only the status reports count. -/
theorem StopsOnShortStatus.of_shortStatus {frames : List Frame} {r : Result}
    (hstop : frames.any shortStatus = true → r = .fault .interpShortFrame)
    (hnext : frames.any shortStatus = false → ∃ t, r = .next t) :
    StopsOnShortStatus (frames.filter isStatus) r := by
  have hiff : (∃ f ∈ frames.filter isStatus, f.length < 13) ↔ frames.any shortStatus = true := by
    simp [shortStatus_iff, and_assoc]
  rw [StopsOnShortStatus]
  split
  · rename_i h
    exact hstop (hiff.mp h)
  · rename_i h
    exact hnext (Bool.eq_false_iff.mpr (mt hiff.mpr h))

theorem receiveAll_stopsOnShortStatus (l : List (Byte × Nat)) (s : State) :
    StopsOnShortStatus ((acceptedFrames s.rxBuf (l.map (·.1))).filter isStatus) (receiveAll l s) := by
  refine .of_shortStatus (receiveAll_stops l) fun h => ?_
  obtain ⟨_, _, _, _, _, _, _, _, _, hreceive⟩ := receiveAll_effect s.cfg l h
  exact ⟨_, hreceive s rfl rfl⟩

theorem receiveByte_stopsOnShortStatus (b : Byte) (t : Nat) (s : State) :
    StopsOnShortStatus ((acceptedFrames s.rxBuf [b]).filter isStatus) (receiveByte b t s) := by
  have hreceive := receiveAll_stopsOnShortStatus [(b, t)] s
  have hone : receiveAll [(b, t)] s = receiveByte b t s := by
    change andThen (receiveByte b t s) .next = _
    rcases receiveByte b t s with _ | _ | _ <;> rfl
  rwa [hone] at hreceive

theorem feedByte_stopsOnShortStatus (b : Byte) (s : State) :
    StopsOnShortStatus ((acceptedFrames s.rxBuf [b]).filter isStatus) (feedByte b s) := by
  refine .of_shortStatus (fun h => feedByte_stops ?_) fun h => ?_
  · simpa [feedStops] using h
  · obtain ⟨_, _, _, _, _, _, _, _, _, _, _, _, hfeed⟩ := feedByte_effect (m := s.rxBuf) (b := b) s.cfg (by
      simpa [feedStops] using h)
    exact ⟨_, hfeed s rfl rfl⟩

theorem interpretFrame_stopsOnShortStatus {f : Frame} (h : f.shaped = true) (s : State) :
    StopsOnShortStatus ([f].filter isStatus) (interpretFrame f s) := by
  have h8 := Frame.shaped_length h
  refine .of_shortStatus (fun hshort => interpretFrame_short h8 (by simpa using hshort) s) fun hlong => ?_
  obtain ⟨_, _, _, _, _, _, _, _, _, hinterpret⟩ := interpretFrame_effect h8 (by simpa using hlong) s.cfg
  exact ⟨_, hinterpret s rfl⟩

theorem statusReport_stopsOnShortStatus (f : Frame) (s : State) : StopsOnShortStatus [f] (statusReport f s) := by
  rcases Nat.lt_or_ge f.length 13 with hshort | hlong
  · simp [StopsOnShortStatus, hshort, statusReport_short s hshort]
  · simp [StopsOnShortStatus, hlong, statusReport_long s hlong]

theorem StopsOnShortStatus.andThen_next {reports : List Frame} {r : Result} (h : StopsOnShortStatus reports r)
    (k : State → State) : StopsOnShortStatus reports (andThen r fun u => .next (k u)) := by
  unfold StopsOnShortStatus at h ⊢
  split
  · rename_i hshort
    rw [if_pos hshort] at h
    rw [h, andThen_fault]
  · rename_i hlong
    rw [if_neg hlong] at h
    obtain ⟨u, rfl⟩ := h
    exact ⟨k u, rfl⟩

theorem extProg_stopsOnShortStatus {f : Frame} (h : f.shaped = true) (s : State) :
    StopsOnShortStatus [] (extProg f s) := by
  have h8 := Frame.shaped_length h
  exact .of_next (extProg_of_programId s (getElem?_of_byteAt (by omega)))

theorem localProg_stopsOnShortStatus {f : Frame} (h : f.shaped = true) (s : State) :
    StopsOnShortStatus [] (localProg f s) := by
  have h8 := Frame.shaped_length h
  exact .of_next (localProg_of_programId s (getElem?_of_byteAt (by omega)))

/-- Every operation, by the meaning it calls. -/
theorem exec_stopsOnShortStatus {i : Instr} (h : i.wf = true) (s : State) :
    StopsOnShortStatus (statusReports s.rxBuf i) (exec i s) := by
  have hshaped {f : Frame} {b : Bool} (hand : (f.shaped && b) = true) : f.shaped = true := by simp_all
  cases i with
  | frame r0 r1 r2 r3 payload ck t =>
    have hreceive := receiveAll_stopsOnShortStatus ((linkBytes r0 r1 r2 r3 payload ck).map fun b => (b, t)) s
    rwa [List.map_map, show ((fun x => x.1) ∘ fun b : Byte => (b, t)) = id from rfl, List.map_id] at hreceive
  | feed b => exact feedByte_stopsOnShortStatus b s
  | rxByte b t => exact receiveByte_stopsOnShortStatus b t s
  | tick drained t => exact (receiveAll_stopsOnShortStatus drained s).andThen_next (schedule t)
  | interpret f => exact interpretFrame_stopsOnShortStatus h s
  | rxExtProg60 f | rxExtProg61 f | rxExtProg62 f => exact extProg_stopsOnShortStatus (hshaped h) s
  | rxLocalProg60 f | rxLocalProg61 f | rxLocalProg62 f => exact localProg_stopsOnShortStatus (hshaped h) s
  | rxStatus60 f | rxStatus61 f | rxStatus62 f => exact statusReport_stopsOnShortStatus f s
  | _ => exact .of_next rfl

/-- Settles O59: the statement is `StopsOnShortStatus` of the operation's status reports. -/
theorem onlyAShortStatusReportStops : Obligations.OnlyAShortStatusReportStops :=
  fun _ s h => exec_stopsOnShortStatus h s

end Sys2Proof.Machine
end
